-- ==== Sys2Proof/Word.lean ====
section
/-! DEFINITION. The word types of the core: bytes, 16-bit words, the immediates and the register index
(spec/00_scope.md R6, R9, R12). -/

namespace Sys2Proof

/-- An unsigned 8-bit value, `u8` (R9): a memory cell, a general register, a timer, the immediate `NN`. -/
abbrev Byte := BitVec 8

/-- An unsigned 16-bit value, `u16` (R9): an instruction word, `I`, `PC`, `SP`, a return address. -/
abbrev Word := BitVec 16

/-- The 12-bit immediate `NNN` (R12). -/
abbrev Imm12 := BitVec 12

/-- A register index, the `x` or `y` field: every value 0..15 names a register (R21). -/
abbrev Reg := Fin 16

/-- The row count `N` of DXYN, 0..15 (R77). -/
abbrev RowCount := Fin 16

/-- `VF`, register 15, also the flags register (R22). -/
abbrev VF : Reg := 15

/-- `V0`, the implicit register of BNNN (R78). -/
abbrev V0 : Reg := 0

end Sys2Proof
end

