-- ==== Sys2Proof/Syntax.lean ====
section
/-! DEFINITION. The 34 instructions (spec/30_encoding.md R80, R86): one constructor per row of spec/opcode_table.json,
in the table's order, named after R86's constructors. -/

namespace Sys2Proof

/-- A decoded instruction: "a closed, exhaustively-matched set of instruction variants" (R86). -/
inductive Instr
  /-- 00E0, clear display (R103). -/
  | cls
  /-- 00EE, return from subroutine (R104). -/
  | ret
  /-- 1NNN, jump (R105). -/
  | jp (nnn : Imm12)
  /-- 2NNN, call subroutine (R106). -/
  | call (nnn : Imm12)
  /-- 3XNN, skip if Vx = NN (R111). -/
  | seImm (x : Reg) (nn : Byte)
  /-- 4XNN, skip if Vx ≠ NN (R112). -/
  | sneImm (x : Reg) (nn : Byte)
  /-- 5XY0, skip if Vx = Vy (R113). -/
  | seReg (x y : Reg)
  /-- 6XNN, Vx := NN (R120). -/
  | ldImm (x : Reg) (nn : Byte)
  /-- 7XNN, Vx := Vx + NN without flag (R121). -/
  | addImm (x : Reg) (nn : Byte)
  /-- 8XY0, copy (R126). -/
  | ldReg (x y : Reg)
  /-- 8XY1, bitwise OR (R127). -/
  | orReg (x y : Reg)
  /-- 8XY2, bitwise AND (R128). -/
  | andReg (x y : Reg)
  /-- 8XY3, bitwise XOR (R129). -/
  | xorReg (x y : Reg)
  /-- 8XY4, add with carry flag (R130). -/
  | addReg (x y : Reg)
  /-- 8XY5, Vx − Vy with no-borrow flag (R131). -/
  | sub (x y : Reg)
  /-- 8XY6, logical shift right by one; y is encoded and ignored (R133). -/
  | shr (x y : Reg)
  /-- 8XY7, Vy − Vx with no-borrow flag (R132). -/
  | subn (x y : Reg)
  /-- 8XYE, logical shift left by one; y is encoded and ignored (R134). -/
  | shl (x y : Reg)
  /-- 9XY0, skip if Vx ≠ Vy (R114). -/
  | sneReg (x y : Reg)
  /-- ANNN, I := NNN (R135). -/
  | ldI (nnn : Imm12)
  /-- BNNN, jump to V0 + NNN (R107). -/
  | jpV0 (nnn : Imm12)
  /-- CXNN, Vx := random byte & NN (R140). -/
  | rnd (x : Reg) (nn : Byte)
  /-- DXYN, draw an N-row sprite (R145). -/
  | drw (x y : Reg) (n : RowCount)
  /-- EX9E, skip if key Vx is pressed (R115). -/
  | skp (x : Reg)
  /-- EXA1, skip if key Vx is not pressed (R116). -/
  | sknp (x : Reg)
  /-- FX07, Vx := DT (R148). -/
  | ldVxDt (x : Reg)
  /-- FX0A, wait for a key (R152). -/
  | ldVxK (x : Reg)
  /-- FX15, DT := Vx (R149). -/
  | ldDtVx (x : Reg)
  /-- FX18, ST := Vx (R150). -/
  | ldStVx (x : Reg)
  /-- FX1E, I := I + Vx (R136). -/
  | addIVx (x : Reg)
  /-- FX29, I := the glyph for digit Vx (R137). -/
  | ldFVx (x : Reg)
  /-- FX33, store the decimal digits of Vx (R156). -/
  | ldBVx (x : Reg)
  /-- FX55, store V0..Vx (R157). -/
  | ldMemVx (x : Reg)
  /-- FX65, load V0..Vx (R158). -/
  | ldVxMem (x : Reg)
  deriving DecidableEq, Repr

end Sys2Proof
end

