-- ==== Sys2Proof/Decode.lean ====
section
/-! DEFINITION. The decoder of spec/30_encoding.md R75, R76, R86: total on any word and any bytes, `none` for an illegal
word (R81); after it the encoder, written from the patterns of R80. -/

namespace Sys2Proof

/-- `F = w[15:12]`, the family selector (R76). -/
def fieldF (w : Word) : BitVec 4 := w.extractLsb' 12 4

/-- `x = w[11:8]` (R76). -/
def fieldX (w : Word) : Reg := (w.extractLsb' 8 4).toFin

/-- `y = w[7:4]` (R76). -/
def fieldY (w : Word) : Reg := (w.extractLsb' 4 4).toFin

/-- `N = w[3:0]` (R76). -/
def fieldN (w : Word) : BitVec 4 := w.extractLsb' 0 4

/-- `NN = w[7:0]` (R76). -/
def fieldNN (w : Word) : Byte := w.extractLsb' 0 8

/-- `NNN = w[11:0]` (R76). -/
def fieldNNN (w : Word) : Imm12 := w.extractLsb' 0 12

/-- Family 0x8: the low nibble selects the operation (R86). -/
def decodeAlu (x y : Reg) (n : BitVec 4) : Option Instr :=
  match n with
  | 0x0#4 => some (.ldReg x y)
  | 0x1#4 => some (.orReg x y)
  | 0x2#4 => some (.andReg x y)
  | 0x3#4 => some (.xorReg x y)
  | 0x4#4 => some (.addReg x y)
  | 0x5#4 => some (.sub x y)
  | 0x6#4 => some (.shr x y)
  | 0x7#4 => some (.subn x y)
  | 0xE#4 => some (.shl x y)
  | _ => none

/-- Family 0xF: the low byte selects the operation (R86). -/
def decodeMisc (x : Reg) (nn : Byte) : Option Instr :=
  match nn with
  | 0x07#8 => some (.ldVxDt x)
  | 0x0A#8 => some (.ldVxK x)
  | 0x15#8 => some (.ldDtVx x)
  | 0x18#8 => some (.ldStVx x)
  | 0x1E#8 => some (.addIVx x)
  | 0x29#8 => some (.ldFVx x)
  | 0x33#8 => some (.ldBVx x)
  | 0x55#8 => some (.ldMemVx x)
  | 0x65#8 => some (.ldVxMem x)
  | _ => none

/-- The decoder, arm by arm as R86 writes it; `none` is R86's `Illegal`. -/
def decode (w : Word) : Option Instr :=
  let x := fieldX w
  let y := fieldY w
  let n := fieldN w
  let nn := fieldNN w
  let nnn := fieldNNN w
  match fieldF w with
  | 0x0#4 => if w = 0x00E0#16 then some .cls else if w = 0x00EE#16 then some .ret else none
  | 0x1#4 => some (.jp nnn)
  | 0x2#4 => some (.call nnn)
  | 0x3#4 => some (.seImm x nn)
  | 0x4#4 => some (.sneImm x nn)
  | 0x5#4 => if n = 0x0#4 then some (.seReg x y) else none
  | 0x6#4 => some (.ldImm x nn)
  | 0x7#4 => some (.addImm x nn)
  | 0x8#4 => decodeAlu x y n
  | 0x9#4 => if n = 0x0#4 then some (.sneReg x y) else none
  | 0xA#4 => some (.ldI nnn)
  | 0xB#4 => some (.jpV0 nnn)
  | 0xC#4 => some (.rnd x nn)
  | 0xD#4 => some (.drw x y n.toFin)
  | 0xE#4 => if nn = 0x9E#8 then some (.skp x) else if nn = 0xA1#8 then some (.sknp x) else none
  | 0xF#4 => decodeMisc x nn
  | _ => none

/-- The instruction word of two consecutive bytes, the one at the lower address being the high byte (R53, R58). -/
def wordOfBytes (hi lo : Byte) : Word := hi ++ lo

/-- The high byte of a word, stored at the lower address (R53). -/
def highByte (w : Word) : Byte := w.extractLsb' 8 8

/-- The low byte of a word, stored at the higher address (R53). -/
def lowByte (w : Word) : Byte := w.extractLsb' 0 8

/-- Decode the first instruction of a byte sequence: every instruction is exactly two bytes (R75, R83). `none` where
fewer than two bytes stand there or the word is illegal. -/
def decodeBytes : List Byte → Option (Instr × List Byte)
  | hi :: lo :: rest => (decode (wordOfBytes hi lo)).map fun i => (i, rest)
  | _ => none

/-- A register index or row count as the nibble that encodes it (R75). -/
def nibble (x : Fin 16) : BitVec 4 := BitVec.ofNat 4 x.val

/-- The layout `F NNN` (R75). -/
def packNNN (f : BitVec 4) (nnn : Imm12) : Word := f ++ nnn

/-- The layout `F x NN` (R75). -/
def packXNN (f : BitVec 4) (x : Reg) (nn : Byte) : Word := f ++ nibble x ++ nn

/-- The layout `F x y N` (R75). -/
def packXYN (f : BitVec 4) (x y : Reg) (n : BitVec 4) : Word := f ++ nibble x ++ nibble y ++ n

/-- The word of an instruction, from the patterns of R80. SHR and SHL carry their y field (R84). -/
def encode : Instr → Word
  | .cls => 0x00E0
  | .ret => 0x00EE
  | .jp nnn => packNNN 0x1 nnn
  | .call nnn => packNNN 0x2 nnn
  | .seImm x nn => packXNN 0x3 x nn
  | .sneImm x nn => packXNN 0x4 x nn
  | .seReg x y => packXYN 0x5 x y 0x0
  | .ldImm x nn => packXNN 0x6 x nn
  | .addImm x nn => packXNN 0x7 x nn
  | .ldReg x y => packXYN 0x8 x y 0x0
  | .orReg x y => packXYN 0x8 x y 0x1
  | .andReg x y => packXYN 0x8 x y 0x2
  | .xorReg x y => packXYN 0x8 x y 0x3
  | .addReg x y => packXYN 0x8 x y 0x4
  | .sub x y => packXYN 0x8 x y 0x5
  | .shr x y => packXYN 0x8 x y 0x6
  | .subn x y => packXYN 0x8 x y 0x7
  | .shl x y => packXYN 0x8 x y 0xE
  | .sneReg x y => packXYN 0x9 x y 0x0
  | .ldI nnn => packNNN 0xA nnn
  | .jpV0 nnn => packNNN 0xB nnn
  | .rnd x nn => packXNN 0xC x nn
  | .drw x y n => packXYN 0xD x y (nibble n)
  | .skp x => packXNN 0xE x 0x9E
  | .sknp x => packXNN 0xE x 0xA1
  | .ldVxDt x => packXNN 0xF x 0x07
  | .ldVxK x => packXNN 0xF x 0x0A
  | .ldDtVx x => packXNN 0xF x 0x15
  | .ldStVx x => packXNN 0xF x 0x18
  | .addIVx x => packXNN 0xF x 0x1E
  | .ldFVx x => packXNN 0xF x 0x29
  | .ldBVx x => packXNN 0xF x 0x33
  | .ldMemVx x => packXNN 0xF x 0x55
  | .ldVxMem x => packXNN 0xF x 0x65

/-- The two bytes of an instruction as memory holds them, high byte first (R53). -/
def encodeBytes (i : Instr) : List Byte := [highByte (encode i), lowByte (encode i)]

/-- What the decoder reads from an instruction whose bits, numbered as spec/opcode_table.json numbers them, are the low
`nbits` bits of `w`: its two bytes, big-endian, given to `decodeBytes`. -/
def decodeTableWord (nbits w : Nat) : Option Instr :=
  let word : Word := BitVec.ofNat 16 (w % 2 ^ nbits)
  (decodeBytes [highByte word, lowByte word]).map (·.1)

end Sys2Proof
end

