-- ==== Sys2Proof/Config.lean ====
section
/-! DEFINITION. What is fixed for the machine (the sizes of spec/00_scope.md R6), the one switch the spec keeps beside a
decision of its own (D5), and the free value of CXNN (R7, R140). -/

namespace Sys2Proof.Config

/-- `MEM_SIZE`: 4096 bytes, addresses 0..4095 (R6, R50). -/
abbrev memSize : Nat := 4096

/-- `PROG_BASE`: where `load` writes and where PC starts (R6, R55, R59). -/
abbrev progBase : Nat := 0x200

/-- The program area, 3584 bytes: the longest `bytes` that `load` accepts (R55). -/
abbrev progSize : Nat := 3584

/-- `GLYPH_BYTES`: each glyph is five bytes (R6, R34). -/
abbrev glyphBytes : Nat := 5

/-- `GLYPH_SET_SIZE`: 80 bytes at address 0 (R6, R34). -/
abbrev glyphSetSize : Nat := 80

/-- `STACK_DEPTH`: 16 return addresses (R6, R28). -/
abbrev stackDepth : Nat := 16

/-- `DISP_W`: 64 columns (R6, R143). -/
abbrev dispWidth : Nat := 64

/-- `DISP_H`: 32 rows (R6, R143). -/
abbrev dispHeight : Nat := 32

/-- The number of pixels, 2048 (R6, R31). -/
abbrev dispSize : Nat := 2048

/-- The two orders in which a flag-writing ALU instruction may write its result and its flag (R125, D5). They differ
only where the destination is VF. -/
inductive FlagOrder
  | flagLast
  | resultLast
  deriving DecidableEq, Repr

/-- The spec's decision for all five flag-writing ALU instructions: the flag is written last (R125, D5).
UNVERIFIED, unsafe: the source leaves the order open (notes/assumptions/8.md). -/
def flagOrder : FlagOrder := .flagLast

/-- The random byte of the n-th execution of CXNN: a FREE VALUE with no body, so that nothing can be proved of it
(R7, R140, D13; notes/assumptions/3.md). -/
opaque randomByte : Nat → Byte

end Sys2Proof.Config
end

