-- ==== Sys2Proof/Machine/Glyphs.lean ====
section
/-! DEFINITION. The default of the parameter `glyphSet`: the 80 bytes at address 0 at construction, five per hexadecimal
digit, top row first (spec/10_state.md R34, D3, GK4). UNVERIFIED, unsafe: the source gives only their number and place
(notes/assumptions/6.md). -/

namespace Sys2Proof.Machine

/-- Glyphs 0 to 7. -/
def glyphsLow : List Byte :=
  [0xF0, 0x90, 0x90, 0x90, 0xF0,
   0x20, 0x60, 0x20, 0x20, 0x70,
   0xF0, 0x10, 0xF0, 0x80, 0xF0,
   0xF0, 0x10, 0xF0, 0x10, 0xF0,
   0x90, 0x90, 0xF0, 0x10, 0x10,
   0xF0, 0x80, 0xF0, 0x10, 0xF0,
   0xF0, 0x80, 0xF0, 0x90, 0xF0,
   0xF0, 0x10, 0x20, 0x40, 0x40]

/-- Glyphs 8 to F. -/
def glyphsHigh : List Byte :=
  [0xF0, 0x90, 0xF0, 0x90, 0xF0,
   0xF0, 0x90, 0xF0, 0x10, 0xF0,
   0xF0, 0x90, 0xF0, 0x90, 0x90,
   0xE0, 0x90, 0xE0, 0x90, 0xE0,
   0xF0, 0x80, 0x80, 0x80, 0xF0,
   0xE0, 0x90, 0x90, 0x90, 0xE0,
   0xF0, 0x80, 0xF0, 0x80, 0xF0,
   0xF0, 0x80, 0xF0, 0x80, 0x80]

/-- The glyph set (R34): glyph d occupies bytes 5d .. 5d+4. -/
def glyphSet : List Byte := glyphsLow ++ glyphsHigh

end Sys2Proof.Machine
end

