-- ==== Sys2Proof/Machine/State.lean ====
section
/-! DEFINITION. The architectural state, exactly the table of spec/10_state.md R20, with the model's own counter of random
draws; the fault kinds of spec/60_exceptions.md R161; the machine right after reset (R38, R186). -/

namespace Sys2Proof.Machine

/-- The memory `MEM[0..4095]` (R33) as the list of the (address, byte) pairs that differ from what an unlisted address
reads as (`Memory.initial`), addresses strictly rising (`Memory.wf`). -/
abbrev Memory := List Host.Cell

/-- The display buffer `DISP`: "2048 booleans, row-major, width 64" (R31). Pixel (x, y) is entry x + 64*y; true is lit. -/
structure Display where
  pixels : List Bool
  size : pixels.length = Config.dispSize
  deriving DecidableEq, Repr

/-- The fault kinds of R161. Each ENTERS THE FAULTED STATE, a next state of the machine (R160, R90): `step`, `exec` and
the transactions write the kind into `State.fault`, and no step of this machine answers `Host.Outcome.fault`
(notes/assumptions/2.md). Each is safe with respect to the reference, which aborts or leaves the case unchecked. -/
inductive Fault
  /-- Code 1. Raised by any step whose word matches no row of R80 (R162). Safe. -/
  | decodeFault
  /-- Code 2. Raised by any step with PC > 4094 (R58, R165). Safe. -/
  | fetchBounds
  /-- Code 3. Raised by DRW, LD B, LD [I] and LD Vx,[I] for an I-based address of 4096 or more (R164, D8). Safe. -/
  | memBounds
  /-- Code 4. Raised by CALL with SP = 16 (R163, D9). Safe. -/
  | stackOverflow
  /-- Code 5. Raised by RET with SP = 0 (R163, D9). Safe. -/
  | stackUnderflow
  /-- Code 6. Raised by SKP and SKNP with Vx > 15 (R166, D12). Safe. -/
  | keyIndex
  /-- Code 7. Raised by the host's `load` of more than 3584 bytes (R56, R167). Safe. -/
  | loadTooLarge
  /-- Code 8. Raised by the host's `keypress` with an index above 15 (R168, D15). Safe. -/
  | hostKeyIndex
  deriving DecidableEq, Repr

/-- Why the model would give an instruction no meaning. -/
inductive Refusal
  /-- An instruction with no meaning yet, by its mnemonic. Raised by no instruction: all 34 have one. Safe. -/
  | notModelled (mnemonic : String)
  deriving DecidableEq, Repr

/-- The fault record of R35: the kind, the address of the offending instruction, and its word where one was fetched. -/
structure FaultRecord where
  kind : Fault
  addr : Word
  word : Option Word
  deriving DecidableEq, Repr

/-- The state of the core between two transactions: the table of R20, nothing else, and the model's own `draws`. -/
@[ext]
structure State where
  /-- `MEM[0..4095]` (R33). -/
  mem : Memory
  /-- `V[0..15]` (R21). -/
  v : Vector Byte 16
  /-- `I` (R27). -/
  i : Word
  /-- `PC` (R24). -/
  pc : Word
  /-- `SP`, 0..16 (R28). -/
  sp : Word
  /-- `STACK[0..15]` (R29). -/
  stack : Vector Word 16
  /-- `DISP[0..2047]` (R31). -/
  disp : Display
  /-- `KEY[0..15]` (R32). -/
  key : Vector Bool 16
  /-- `DT` (R30). -/
  dt : Byte
  /-- `ST` (R30). -/
  st : Byte
  /-- `FAULT` (R35). -/
  fault : Option FaultRecord
  /-- The model's own: how many random draws have been taken. It selects the free value of the next CXNN
  (notes/assumptions/3.md). -/
  draws : Nat
  deriving DecidableEq, Repr

/-- What one step answers. -/
abbrev Result := Host.Outcome State Fault Refusal

/-- Every pixel unlit (R103). -/
def Display.blank : Display := ⟨List.replicate Config.dispSize false, List.length_replicate⟩

/-- The machine right after construction (R38, R186): PC at 0x200, the glyph set in memory (no cell listed: an unlisted
address reads as its construction value), everything else zero, false or empty by the spec's D1 and D2
(UNVERIFIED, unsafe: notes/assumptions/4.md, 5.md, 6.md). `draws` is 0 (DESIGN CHOICE, notes/assumptions/3.md). -/
def State.reset : State where
  mem := []
  v := Vector.replicate 16 0
  i := 0
  pc := 0x200
  sp := 0
  stack := Vector.replicate 16 0
  disp := Display.blank
  key := Vector.replicate 16 false
  dt := 0
  st := 0
  fault := none
  draws := 0

end Sys2Proof.Machine
end

