-- ==== Sys2Proof/Machine/Ops.lean ====
section
/-! DEFINITION. The named operations over memory, registers, stack, display, timers and keys, and taking a fault
(spec/10_state.md, 20_memory.md, 40_control_flow.md section 1, 46_draw.md, 60_exceptions.md). -/

namespace Sys2Proof.Machine

/-! ### Memory -/

/-- What an address reads as at construction, and as long as it is not listed: the glyph set at 0..79, then 0x00
(R34, R38, R59; notes/assumptions/5.md and 6.md). -/
def Memory.initial (a : Nat) : Byte := glyphSet.getD a 0

/-- The byte the list holds for an address, with no bounds check. -/
def Memory.byteAt : Memory → Nat → Byte
  | [], a => Memory.initial a
  | (k, b) :: m, a => if a = k then b else Memory.byteAt m a

/-- Set the byte of an address, with no bounds check, keeping the canonical form: the entry is dropped where the byte is
what an unlisted address reads as. -/
def Memory.put : Memory → Nat → Byte → Memory
  | [], a, b => if b = Memory.initial a then [] else [(a, b)]
  | (k, c) :: m, a, b =>
    if a < k then (if b = Memory.initial a then (k, c) :: m else (a, b) :: (k, c) :: m)
    else if a = k then (if b = Memory.initial a then m else (a, b) :: m)
    else (k, c) :: Memory.put m a b

/-- The list's addresses are `lo` or more, strictly rising and below 4096, and no entry equals what an unlisted address
reads as. -/
def Memory.wfFrom : Nat → Memory → Bool
  | _, [] => true
  | lo, (k, b) :: m =>
    decide (lo ≤ k) && decide (k < Config.memSize) && decide (b ≠ Memory.initial k) && Memory.wfFrom (k + 1) m

/-- The canonical form of a memory. -/
def Memory.wf (m : Memory) : Bool := Memory.wfFrom 0 m

/-- `MemRead(a, 1)`, defined only for 0 ≤ a ≤ 4095 (R10, R52). -/
def Memory.read (m : Memory) (a : Nat) : Option Byte :=
  if a < Config.memSize then some (Memory.byteAt m a) else none

/-- `MemWrite(a, 1, b)`, defined only for 0 ≤ a ≤ 4095 (R10, R52). -/
def Memory.write (m : Memory) (a : Nat) (b : Byte) : Option Memory :=
  if a < Config.memSize then some (Memory.put m a b) else none

/-- `n` byte reads at a, a+1, …; `none` if any address of the set is outside memory (R52). -/
def Memory.readBytes (m : Memory) : Nat → Nat → Option (List Byte)
  | _, 0 => some []
  | a, n + 1 =>
    match Memory.read m a, Memory.readBytes m (a + 1) n with
    | some b, some bs => some (b :: bs)
    | _, _ => none

/-- Byte writes at a, a+1, … in order; `none`, with no byte written, if any address of the set is outside memory (R52). -/
def Memory.writeBytes : Memory → Nat → List Byte → Option Memory
  | m, _, [] => some m
  | m, a, b :: bs =>
    match Memory.write m a b with
    | some m' => Memory.writeBytes m' (a + 1) bs
    | none => none

/-- Byte writes at a, a+1, … in order, with no bounds check. -/
def Memory.fill : Memory → Nat → List Byte → Memory
  | m, _, [] => m
  | m, a, b :: bs => Memory.fill (Memory.put m a b) (a + 1) bs

/-- The word at `a` and `a+1`, big-endian (R53, R58); `none` unless both addresses exist. -/
def Memory.readWord (m : Memory) (a : Nat) : Option Word :=
  match Memory.read m a, Memory.read m (a + 1) with
  | some hi, some lo => some (wordOfBytes hi lo)
  | _, _ => none

/-! ### Registers -/

/-- `V[x]` (R10). -/
def State.readV (s : State) (x : Reg) : Byte := s.v[x]

/-- `V[x] <- b` (R10). -/
def State.writeV (s : State) (x : Reg) (b : Byte) : State := { s with v := s.v.set x b }

/-- `V[0 .. n-1]` for n ≤ 16, in order (R157). -/
def State.firstRegs (s : State) (n : Nat) : List Byte := s.v.toList.take n

/-- Put bytes into registers k, k+1, … in order (R158). -/
def setRegsFrom (v : Vector Byte 16) : Nat → List Byte → Vector Byte 16
  | _, [] => v
  | k, b :: bs => setRegsFrom (v.setIfInBounds k b) (k + 1) bs

/-- `V[k] <- bytes[k]` for every k below the number of bytes (R158). -/
def State.loadRegs (s : State) (bytes : List Byte) : State := { s with v := setRegsFrom s.v 0 bytes }

/-- `I <- a` (R10). -/
def State.writeI (s : State) (a : Word) : State := { s with i := a }

/-- `PC <- a`; no check is made when PC is written (R25, R100). -/
def State.writePC (s : State) (a : Word) : State := { s with pc := a }

/-- `DT <- b` (R10). -/
def State.writeDT (s : State) (b : Byte) : State := { s with dt := b }

/-- `ST <- b` (R10). -/
def State.writeST (s : State) (b : Byte) : State := { s with st := b }

/-- The memory after a step's or a load's writes. -/
def State.writeMem (s : State) (m : Memory) : State := { s with mem := m }

/-- The display after a draw or a clear (R31). -/
def State.writeDisp (s : State) (d : Display) : State := { s with disp := d }

/-- `KEY[k] <- pressed` (R176). -/
def State.writeKey (s : State) (k : Fin 16) (pressed : Bool) : State := { s with key := s.key.set k pressed }

/-- The next draw is another one (R7: one draw per execution of CXNN). -/
def State.nextDraw (s : State) : State := { s with draws := s.draws + 1 }

/-! ### The stack -/

/-- `Push(a)` (R101); `none` is its StackOverflow. -/
def State.push (s : State) (a : Word) : Option State :=
  if h : s.sp.toNat < Config.stackDepth then
    some { s with stack := s.stack.set s.sp.toNat a h, sp := s.sp + 1 }
  else none

/-- `Pop()` (R102): the popped address and the state after; the slot is not cleared. `none` is its StackUnderflow, and
also, DESIGN CHOICE, the answer for an SP above 16, which no run reaches (notes/assumptions/13.md). -/
def State.pop (s : State) : Option (Word × State) :=
  if s.sp = 0 then none
  else (s.stack[(s.sp - 1).toNat]?).map fun a => (a, { s with sp := s.sp - 1 })

/-! ### Taking a fault -/

/-- The numeric code of a fault kind (R161). -/
def Fault.code : Fault → Nat
  | .decodeFault => 1
  | .fetchBounds => 2
  | .memBounds => 3
  | .stackOverflow => 4
  | .stackUnderflow => 5
  | .keyIndex => 6
  | .loadTooLarge => 7
  | .hostKeyIndex => 8

/-- TAKING A FAULT: `FAULT <- {kind, addr, word}` and nothing else (R90, R160, R170). There is no handler, no vector and
no return: the machine is halted from here on (R171). -/
def State.enterFault (s : State) (kind : Fault) (addr : Word) (word : Option Word) : State :=
  { s with fault := some ⟨kind, addr, word⟩ }

/-- `raise Fault(kind)` in the execute phase of instruction `ins` (R10, R91): every write of the step is discarded, the
fetch's advance of PC with them, and the fault is taken at A = PC − 2 with the instruction's own word. A meaning raises
before it writes anything, so the state before the step is the given one with PC put back. -/
def State.raise (s : State) (kind : Fault) (ins : Instr) : State :=
  (s.writePC (s.pc - 2)).enterFault kind (s.pc - 2) (some (encode ins))

/-! ### The display -/

/-- The index of pixel (x, y), x + 64*y, with both coordinates wrapped into the display (R31, R143). -/
def pixelIndex (x y : Nat) : Fin Config.dispSize :=
  ⟨x % Config.dispWidth + Config.dispWidth * (y % Config.dispHeight), by
    simp only [Config.dispWidth, Config.dispHeight, Config.dispSize]; omega⟩

/-- `DISP[p]` (R10). -/
def Display.get (d : Display) (p : Fin Config.dispSize) : Bool := d.pixels[p.val]'(by rw [d.size]; exact p.isLt)

/-- `DISP[p] <- lit` (R10). -/
def Display.set (d : Display) (p : Fin Config.dispSize) (lit : Bool) : Display :=
  ⟨d.pixels.set p.val lit, by rw [List.length_set, d.size]⟩

/-- A draw in progress: the display so far and whether some pixel has gone from lit to unlit (R145). -/
structure Draw where
  disp : Display
  collided : Bool
  deriving DecidableEq, Repr

/-- XOR one pixel with true and record a lit-to-unlit change (R145's innermost lines). -/
def Draw.toggle (a : Draw) (p : Fin Config.dispSize) : Draw :=
  ⟨a.disp.set p (!a.disp.get p), a.collided || a.disp.get p⟩

/-- Column `col` of a sprite row: bit `7 - col` of its byte (R144, D23). -/
def spriteBit (b : Byte) (col : Nat) : Bool := b.getLsbD (7 - col)

/-- Columns 0..7 of one sprite row at (cx, cy + row) (R145). -/
def Draw.spriteRow (cx cy row : Nat) (b : Byte) (a : Draw) : Draw :=
  [0, 1, 2, 3, 4, 5, 6, 7].foldl
    (fun a col => if spriteBit b col then a.toggle (pixelIndex (cx + col) (cy + row)) else a) a

/-- The rows of a sprite in order, the first one of them being row `row` (R145). -/
def Draw.spriteRows (cx cy : Nat) : Nat → List Byte → Draw → Draw
  | _, [], a => a
  | row, b :: bs, a => Draw.spriteRows cx cy (row + 1) bs (Draw.spriteRow cx cy row b a)

/-! ### The keypad and the timers -/

/-- `KEY[k]` for a byte-valued index; `none` for k > 15 (R115, R116, R166). -/
def State.keyAt (s : State) (k : Byte) : Option Bool := s.key[k.toNat]?

/-- The lowest pressed key, scanning from index 0 upward (R152). -/
def State.lowestKey (s : State) : Option Nat := s.key.toList.findIdx? (· == true)

/-- One countdown, floored at 0 (R174). -/
def countDown (b : Byte) : Byte := if b = 0 then 0 else b - 1

/-- The timer step's effect on the two timers (R174), for a machine that is not faulted. -/
def State.countTimers (s : State) : State := (s.writeDT (countDown s.dt)).writeST (countDown s.st)

/-- Does a timer step that begins in this state emit the sound cue? (R175) -/
def State.soundCue (s : State) : Bool := s.st == 1

end Sys2Proof.Machine
end

