-- ==== Sys2Proof/Machine/Operands.lean ====
section
/-! DEFINITION. The operand forms of spec/30_encoding.md R77 and R78: register direct, immediate, I-based memory and the
implicit operands. Every value is unsigned; none is scaled or sign-extended. -/

namespace Sys2Proof.Machine

/-- `zext_16(NNN)` (R77). -/
def immAddr (nnn : Imm12) : Word := nnn.setWidth 16

/-- `zext_16` of a byte (R9). -/
def byteToWord (b : Byte) : Word := b.setWidth 16

/-- The base of an I-based access, an exact natural: the bytes at `I + k` are at this address plus k (R52, R78). -/
def State.memBase (s : State) : Nat := s.i.toNat

/-- The N sprite rows at I, I+1, … (R144); `none` is MemBounds. N = 0 reads no memory (R145). -/
def State.spriteBytes (s : State) (n : RowCount) : Option (List Byte) := Memory.readBytes s.mem s.memBase n.val

/-- The x+1 bytes at I .. I+x (R158); `none` is MemBounds. -/
def State.regBytesAtI (s : State) (x : Reg) : Option (List Byte) := Memory.readBytes s.mem s.memBase (x.val + 1)

/-- Memory after storing bytes at I, I+1, … (R156, R157); `none` is MemBounds. -/
def State.storeAtI (s : State) (bytes : List Byte) : Option Memory := Memory.writeBytes s.mem s.memBase bytes

/-- `V0..Vx` inclusive, in order (R157). -/
def State.regsUpTo (s : State) (x : Reg) : List Byte := s.firstRegs (x.val + 1)

/-- The hundreds, tens and ones digits of a byte (R156). -/
def bcdDigits (b : Byte) : List Byte :=
  [BitVec.ofNat 8 (b.toNat / 100), BitVec.ofNat 8 (b.toNat / 10 % 10), BitVec.ofNat 8 (b.toNat % 10)]

/-- The address of the glyph for a digit, Vx * 5, unmasked (R137, D22): at most 1275, so it does not wrap. -/
def glyphAddr (b : Byte) : Word := BitVec.ofNat 16 (b.toNat * Config.glyphBytes)

/-- The implicit operand of CXNN: this execution's random draw (R7, R78, R140). -/
def State.randomDraw (s : State) : Byte := Config.randomByte s.draws

end Sys2Proof.Machine
end

