-- ==== Sys2Proof/Machine/Flags.lean ====
section
/-! DEFINITION. Every flag computation (spec/10_state.md R26; 43_register_register.md R125, R130 to R134; 46_draw.md R145)
and the order in which a result and its flag are written. The only flag is VF (R26). -/

namespace Sys2Proof.Machine

/-- VF holds 1 or 0 (R26). -/
def flagByte (b : Bool) : Byte := if b then 1 else 0

/-- The 8-bit sum, reduced mod 256 (R121, R130). -/
def sum8 (a b : Byte) : Byte := a + b

/-- 1 iff the exact sum exceeds 255 (R130). -/
def carryFlag (a b : Byte) : Byte := flagByte (decide (a.toNat + b.toNat > 255))

/-- The 8-bit difference a − b, reduced mod 256 (R131, R132). -/
def diff8 (a b : Byte) : Byte := a - b

/-- 1 iff a − b needs no borrow, a ≥ b (R131, R132). -/
def noBorrowFlag (a b : Byte) : Byte := flagByte (decide (a.toNat ≥ b.toNat))

/-- Logical shift right by one, bit 7 of the result 0 (R133). -/
def shr8 (a : Byte) : Byte := a >>> 1

/-- The bit shifted out to the right, old bit 0 (R133). -/
def shrFlag (a : Byte) : Byte := flagByte (a.getLsbD 0)

/-- Logical shift left by one, mod 256 (R134). -/
def shl8 (a : Byte) : Byte := a <<< 1

/-- The bit shifted out to the left, old bit 7 (R134). -/
def shlFlag (a : Byte) : Byte := flagByte (a.getLsbD 7)

/-- Write a result to Vx and a flag to VF in the given order; the later write wins where x = F (R11, R125, D5). -/
def State.writeResultFlag (s : State) (order : Config.FlagOrder) (x : Reg) (result flag : Byte) : State :=
  match order with
  | .flagLast => (s.writeV x result).writeV VF flag
  | .resultLast => (s.writeV VF flag).writeV x result

end Sys2Proof.Machine
end

