-- ==== Sys2Proof/Machine/Address.lean ====
section
/-! DEFINITION. Address register: ANNN, FX1E, FX29 (spec/44_address_register.md). I is not checked against memory until it
is used (R135). -/

namespace Sys2Proof.Machine

/-- ANNN LD I, NNN (R135). -/
def execLdI (nnn : Imm12) (s : State) : Result := .next (s.writeI (immAddr nnn))

/-- FX1E ADD I, Vx (R136): 16-bit wraparound, VF not written (D24). -/
def execAddIVx (x : Reg) (s : State) : Result := .next (s.writeI (s.i + byteToWord (s.readV x)))

/-- FX29 LD F, Vx (R137): I = Vx * 5, unmasked (D22). -/
def execLdFVx (x : Reg) (s : State) : Result := .next (s.writeI (glyphAddr (s.readV x)))

end Sys2Proof.Machine
end

