-- ==== Sys2Proof/Machine/Alu.lean ====
section
/-! DEFINITION. Register-register ALU: 8XY0 to 8XY7 and 8XYE (spec/43_register_register.md). Operands are read before any
write (R11, R125). -/

namespace Sys2Proof.Machine

/-- 8XY0 LD Vx, Vy (R126). -/
def execLdReg (x y : Reg) (s : State) : Result := .next (s.writeV x (s.readV y))

/-- 8XY1 OR (R127): VF is not reset. -/
def execOrReg (x y : Reg) (s : State) : Result := .next (s.writeV x (s.readV x ||| s.readV y))

/-- 8XY2 AND (R128). -/
def execAndReg (x y : Reg) (s : State) : Result := .next (s.writeV x (s.readV x &&& s.readV y))

/-- 8XY3 XOR (R129). -/
def execXorReg (x y : Reg) (s : State) : Result := .next (s.writeV x (s.readV x ^^^ s.readV y))

/-- 8XY4 ADD with carry flag (R130). -/
def execAddReg (x y : Reg) (s : State) : Result :=
  .next (s.writeResultFlag Config.flagOrder x (sum8 (s.readV x) (s.readV y)) (carryFlag (s.readV x) (s.readV y)))

/-- 8XY5 SUB: Vx − Vy with no-borrow flag (R131). -/
def execSub (x y : Reg) (s : State) : Result :=
  .next (s.writeResultFlag Config.flagOrder x (diff8 (s.readV x) (s.readV y)) (noBorrowFlag (s.readV x) (s.readV y)))

/-- 8XY6 SHR: Vx shifted in place, y ignored (R133, D6). -/
def execShr (x _y : Reg) (s : State) : Result :=
  .next (s.writeResultFlag Config.flagOrder x (shr8 (s.readV x)) (shrFlag (s.readV x)))

/-- 8XY7 SUBN: Vy − Vx with no-borrow flag (R132). -/
def execSubn (x y : Reg) (s : State) : Result :=
  .next (s.writeResultFlag Config.flagOrder x (diff8 (s.readV y) (s.readV x)) (noBorrowFlag (s.readV y) (s.readV x)))

/-- 8XYE SHL: Vx shifted in place, y ignored (R134, D6). -/
def execShl (x _y : Reg) (s : State) : Result :=
  .next (s.writeResultFlag Config.flagOrder x (shl8 (s.readV x)) (shlFlag (s.readV x)))

end Sys2Proof.Machine
end

