-- ==== Sys2Proof/Machine/Block.lean ====
section
/-! DEFINITION. BCD store and register dump and load: FX33, FX55, FX65 (spec/49_memory_block.md). None changes I; each
checks every address before it writes anything (R155). -/

namespace Sys2Proof.Machine

/-- FX33 LD B, Vx (R156). -/
def execLdBVx (x : Reg) (s : State) : Result :=
  match s.storeAtI (bcdDigits (s.readV x)) with
  | some m => .next (s.writeMem m)
  | none => .next (s.raise .memBounds (.ldBVx x))

/-- FX55 LD [I], Vx (R157). -/
def execLdMemVx (x : Reg) (s : State) : Result :=
  match s.storeAtI (s.regsUpTo x) with
  | some m => .next (s.writeMem m)
  | none => .next (s.raise .memBounds (.ldMemVx x))

/-- FX65 LD Vx, [I] (R158). -/
def execLdVxMem (x : Reg) (s : State) : Result :=
  match s.regBytesAtI x with
  | some bytes => .next (s.loadRegs bytes)
  | none => .next (s.raise .memBounds (.ldVxMem x))

end Sys2Proof.Machine
end

