-- ==== Sys2Proof/Machine/Control.lean ====
section
/-! DEFINITION. Control flow: 00E0, 00EE, 1NNN, 2NNN, BNNN (spec/40_control_flow.md). A meaning runs after the fetch, so
PC is A + 2 (R11, R24). -/

namespace Sys2Proof.Machine

/-- 00E0 CLS (R103). -/
def execCls (s : State) : Result := .next (s.writeDisp Display.blank)

/-- 00EE RET (R104): the popped value is used unchecked; StackUnderflow with SP = 0. -/
def execRet (s : State) : Result :=
  match s.pop with
  | some (target, t) => .next (t.writePC target)
  | none => .next (s.raise .stackUnderflow .ret)

/-- 1NNN JP (R105). -/
def execJp (nnn : Imm12) (s : State) : Result := .next (s.writePC (immAddr nnn))

/-- 2NNN CALL (R106): pushes PC, the address of the word after the call; StackOverflow with SP = 16. -/
def execCall (nnn : Imm12) (s : State) : Result :=
  match s.push s.pc with
  | some t => .next (t.writePC (immAddr nnn))
  | none => .next (s.raise .stackOverflow (.call nnn))

/-- BNNN JP V0 (R107): the register is always V0. -/
def execJpV0 (nnn : Imm12) (s : State) : Result := .next (s.writePC (immAddr nnn + byteToWord (s.readV V0)))

end Sys2Proof.Machine
end

