-- ==== Sys2Proof/Machine/Immediate.lean ====
section
/-! DEFINITION. Register-immediate: 6XNN, 7XNN (spec/42_register_immediate.md). -/

namespace Sys2Proof.Machine

/-- 6XNN LD Vx, NN (R120). -/
def execLdImm (x : Reg) (nn : Byte) (s : State) : Result := .next (s.writeV x nn)

/-- 7XNN ADD Vx, NN (R121): wraps silently, VF is not a flag here. -/
def execAddImm (x : Reg) (nn : Byte) (s : State) : Result := .next (s.writeV x (sum8 (s.readV x) nn))

end Sys2Proof.Machine
end

