-- ==== Sys2Proof/Machine/KeyWait.lean ====
section
/-! DEFINITION. Block on key: FX0A (spec/48_key_wait.md). -/

namespace Sys2Proof.Machine

/-- FX0A LD Vx, K (R152): the lowest pressed key into Vx, or PC rewound by 2 so that the next step runs the same word
again. A waiting step is an ordinary step (R153). -/
def execLdVxK (x : Reg) (s : State) : Result :=
  match s.lowestKey with
  | some k => .next (s.writeV x (BitVec.ofNat 8 k))
  | none => .next (s.writePC (s.pc - 2))

end Sys2Proof.Machine
end

