-- ==== Sys2Proof/Machine/Random.lean ====
section
/-! DEFINITION. Randomization: CXNN (spec/45_random.md). -/

namespace Sys2Proof.Machine

/-- CXNN for a given draw r: `V[x] <- r & NN` (R140), and the draw is used up. -/
def rndWith (r : Byte) (x : Reg) (nn : Byte) (s : State) : Result := .next ((s.writeV x (r &&& nn)).nextDraw)

/-- CXNN RND Vx, NN (R140): the draw is a free value. -/
def execRnd (x : Reg) (nn : Byte) (s : State) : Result := rndWith s.randomDraw x nn s

end Sys2Proof.Machine
end

