-- ==== Sys2Proof/Machine/Skip.lean ====
section
/-! DEFINITION. The conditional skips: 3XNN, 4XNN, 5XY0, 9XY0, EX9E, EXA1 (spec/41_conditional_skip.md). -/

namespace Sys2Proof.Machine

/-- `Skip(c)` (R110): PC moves over one two-byte word, which is not fetched. -/
def State.skipIf (s : State) (c : Bool) : State := if c then s.writePC (s.pc + 2) else s

/-- A skip on a key's state (R115, R116): KeyIndex where Vx > 15. -/
def skipOnKey (x : Reg) (pressed : Bool) (ins : Instr) (s : State) : Result :=
  match s.keyAt (s.readV x) with
  | some k => .next (s.skipIf (k == pressed))
  | none => .next (s.raise .keyIndex ins)

/-- 3XNN SE Vx, NN (R111). -/
def execSeImm (x : Reg) (nn : Byte) (s : State) : Result := .next (s.skipIf (s.readV x == nn))

/-- 4XNN SNE Vx, NN (R112). -/
def execSneImm (x : Reg) (nn : Byte) (s : State) : Result := .next (s.skipIf (s.readV x != nn))

/-- 5XY0 SE Vx, Vy (R113). -/
def execSeReg (x y : Reg) (s : State) : Result := .next (s.skipIf (s.readV x == s.readV y))

/-- 9XY0 SNE Vx, Vy (R114). -/
def execSneReg (x y : Reg) (s : State) : Result := .next (s.skipIf (s.readV x != s.readV y))

/-- EX9E SKP Vx (R115). -/
def execSkp (x : Reg) (s : State) : Result := skipOnKey x true (.skp x) s

/-- EXA1 SKNP Vx (R116). -/
def execSknp (x : Reg) (s : State) : Result := skipOnKey x false (.sknp x) s

end Sys2Proof.Machine
end

