-- ==== Sys2Proof/Machine/Sprite.lean ====
section
/-! DEFINITION. Draw: DXYN (spec/46_draw.md). -/

namespace Sys2Proof.Machine

/-- DXYN DRW Vx, Vy, N (R145): the coordinates are read before VF is written; MemBounds is checked before any pixel
changes; VF is always written. -/
def execDrw (x y : Reg) (n : RowCount) (s : State) : Result :=
  match s.spriteBytes n with
  | some rows =>
    let a := Draw.spriteRows (s.readV x).toNat (s.readV y).toNat 0 rows ⟨s.disp, false⟩
    .next ((s.writeDisp a.disp).writeV VF (flagByte a.collided))
  | none => .next (s.raise .memBounds (.drw x y n))

end Sys2Proof.Machine
end

