-- ==== Sys2Proof/Machine/Timer.lean ====
section
/-! DEFINITION. Timer transfer: FX07, FX15, FX18 (spec/47_timer_transfer.md). -/

namespace Sys2Proof.Machine

/-- FX07 LD Vx, DT (R148). -/
def execLdVxDt (x : Reg) (s : State) : Result := .next (s.writeV x s.dt)

/-- FX15 LD DT, Vx (R149). -/
def execLdDtVx (x : Reg) (s : State) : Result := .next (s.writeDT (s.readV x))

/-- FX18 LD ST, Vx (R150). -/
def execLdStVx (x : Reg) (s : State) : Result := .next (s.writeST (s.readV x))

end Sys2Proof.Machine
end

