-- ==== Sys2Proof/Machine/Fetch.lean ====
section
/-! DEFINITION. The fetch and decode phases of a step (spec/20_memory.md R58; 30_encoding.md R90, R92). -/

namespace Sys2Proof.Machine

/-- What the fetch and decode phases of a step come to. -/
inductive Fetched
  /-- The step ends here, in this state: the machine was faulted already, or the fetch or decode faulted. -/
  | ends (t : State)
  /-- The instruction to execute, and the state to execute it in, PC advanced by 2. -/
  | runs (ins : Instr) (t : State)
  deriving DecidableEq, Repr

/-- The phases of a step before execution, in the order of R90 and R92: a faulted machine is halted; FetchBounds with
PC > 4094; DecodeFault for an illegal word; else PC is advanced by 2. -/
def State.fetch (s : State) : Fetched :=
  if s.fault.isSome then .ends s
  else
    match Memory.readWord s.mem s.pc.toNat with
    | none => .ends (s.enterFault .fetchBounds s.pc none)
    | some w =>
      match decode w with
      | none => .ends (s.enterFault .decodeFault s.pc (some w))
      | some ins => .runs ins (s.writePC (s.pc + 2))

/-- Store an instruction word, its high byte first, at PC (R53). -/
def State.putWordAtPC (s : State) (w : Word) : State :=
  s.writeMem (Memory.put (Memory.put s.mem s.pc.toNat (highByte w)) (s.pc.toNat + 1) (lowByte w))

/-- A state whose next step reaches its fetch: FAULT cleared, and PC, where no fetch is possible at it, at 0x200. -/
def State.ready (s : State) : State :=
  { s with fault := none, pc := if s.pc.toNat + 1 < Config.memSize then s.pc else 0x200 }

end Sys2Proof.Machine
end

