-- ==== Sys2Proof/Machine/Step.lean ====
section
/-! DEFINITION. One step of the machine, the host's `tick()` (spec/30_encoding.md R90), and where the host places the word
of the next step. -/

namespace Sys2Proof.Machine

/-- `tick()`: exactly one fetch-decode-execute cycle (R90). A fault is taken as a next state with FAULT set
(notes/assumptions/2.md). -/
def step (s : State) : Host.Outcome State Fault Refusal :=
  match s.fetch with
  | .ends t => .next t
  | .runs ins t => exec ins t

/-- The state whose next step runs the instruction word in the low `nbits` bits of `w`, bit 0 the least significant, as
spec/opcode_table.json numbers them: the word is stored at PC. It stands for the host's `load`
(notes/assumptions/14.md). -/
def State.withFetchWord (s : State) (nbits w : Nat) : State :=
  s.ready.putWordAtPC (BitVec.ofNat 16 (w % 2 ^ nbits))

end Sys2Proof.Machine
end

