-- ==== Sys2Proof/Machine/Transactions.lean ====
section
/-! DEFINITION. The five host transactions (spec/10_state.md R39) and every interleaving of them (60_exceptions.md R181);
construction with the parameters the spec leaves open (00_scope.md R7; 92_eei_decisions.md D1 to D3). -/

namespace Sys2Proof.Machine

/-- A host transaction, atomic and performed between two others (R39). -/
inductive Transaction
  /-- `load(bytes)` (R55). -/
  | load (bytes : List Byte)
  /-- `tick()` (R90). -/
  | tick
  /-- `tick_timers()` (R174). -/
  | tickTimers
  /-- `get_display()` (R177). -/
  | getDisplay
  /-- `keypress(index, pressed)` (R176). -/
  | keypress (index : Nat) (pressed : Bool)
  deriving DecidableEq, Repr

/-- What the core puts out to the host. -/
inductive Output
  /-- The `SoundCue` event of a timer step (R175, D14). -/
  | soundCue
  /-- The bitmap that `get_display` returns (R177). -/
  | frame (d : Display)
  deriving DecidableEq, Repr

/-- `load(bytes)` (R55, R56): LoadTooLarge before any byte is written where more than 3584 bytes are given. Nothing but
memory changes. -/
def State.load (s : State) (bytes : List Byte) : State :=
  if s.fault.isSome then s
  else if bytes.length ≤ Config.progSize then s.writeMem (Memory.fill s.mem Config.progBase bytes)
  else s.enterFault .loadTooLarge 0x200 none

/-- `tick_timers()` (R174, R175): the cue is sampled before the decrement. -/
def State.tickTimers (s : State) : State × List Output :=
  if s.fault.isSome then (s, [])
  else (s.countTimers, if s.soundCue then [.soundCue] else [])

/-- `keypress(index, pressed)` (R176, R168). -/
def State.keypress (s : State) (index : Nat) (pressed : Bool) : State :=
  if s.fault.isSome then s
  else if h : index < 16 then s.writeKey ⟨index, h⟩ pressed
  else s.enterFault .hostKeyIndex s.pc none

/-- One transaction: the state after it and what the core put out. -/
def transact (t : Transaction) (s : State) : Host.Outcome (State × List Output) Fault Refusal :=
  match t with
  | .load bytes => .next (s.load bytes, [])
  | .tick =>
    match step s with
    | .next s' => .next (s', [])
    | .fault r => .fault r
    | .refused r => .refused r
  | .tickTimers => .next s.tickTimers
  | .getDisplay => .next (s, [.frame s.disp])
  | .keypress index pressed => .next (s.keypress index pressed, [])

/-- A schedule of transactions in order, with the trace of what the core put out (R175, R181). -/
def runTransactions : List Transaction → State → Host.Outcome (State × List Output) Fault Refusal
  | [], s => .next (s, [])
  | t :: ts, s =>
    match transact t s with
    | .next (s', out) =>
      match runTransactions ts s' with
      | .next (s'', outs) => .next (s'', out ++ outs)
      | .fault r => .fault r
      | .refused r => .refused r
    | .fault r => .fault r
    | .refused r => .refused r

/-- The construction values the source leaves open (R7, R34, R38; D1, D2, D3), for claims over all of them. -/
structure Construction where
  /-- The 80 glyph bytes (R34, D3). -/
  glyphs : Vector Byte Config.glyphSetSize
  /-- Bytes 80..4095 (D2). -/
  initMem : Vector Byte (Config.memSize - Config.glyphSetSize)
  initV : Vector Byte 16
  initI : Word
  initDisp : Display
  initDT : Byte
  initST : Byte

/-- The machine constructed with the given values: PC at 0x200, an empty stack, no key pressed, no fault (R38, R186). -/
def State.construct (c : Construction) : State :=
  { State.reset with
    mem := Memory.fill (Memory.fill [] 0 c.glyphs.toList) Config.glyphSetSize c.initMem.toList
    v := c.initV
    i := c.initI
    disp := c.initDisp
    dt := c.initDT
    st := c.initST }

end Sys2Proof.Machine
end

