-- ==== Sys2Proof/Safety.lean ====
section
/-! DEFINITION. What counts as a good state and as the end of a run, in the terms the statements use
(spec/10_state.md R25, R28, R35; 70_reset_and_hazards.md R194). -/

namespace Sys2Proof

/-- The instruction's own execute-phase check, if it has one: the list of R92. -/
def Instr.ownFault : Instr → Option Machine.Fault
  | .call _ => some .stackOverflow
  | .ret => some .stackUnderflow
  | .drw _ _ _ | .ldBVx _ | .ldMemVx _ | .ldVxMem _ => some .memBounds
  | .skp _ | .sknp _ => some .keyIndex
  | .cls | .jp _ | .seImm _ _ | .sneImm _ _ | .seReg _ _ | .ldImm _ _ | .addImm _ _ | .ldReg _ _ | .orReg _ _ => none
  | .andReg _ _ | .xorReg _ _ | .addReg _ _ | .sub _ _ | .shr _ _ | .subn _ _ | .shl _ _ | .sneReg _ _ => none
  | .ldI _ | .jpV0 _ | .rnd _ _ | .ldVxDt _ | .ldVxK _ | .ldDtVx _ | .ldStVx _ | .addIVx _ | .ldFVx _ => none

end Sys2Proof

namespace Sys2Proof.Machine

/-- The kinds whose record carries no word: the fault came before a word could be fetched, or from the host (R35, R161). -/
def Fault.hasNoWord (k : Fault) : Bool := k == .fetchBounds || k == .loadTooLarge || k == .hostKeyIndex

/-- A fault record as R35 and R161 give it, in a machine whose PC is `pc`: a word exactly for the kinds that have one,
and the address of the faulting step, which is where PC still is (R91), or 0x200 for a load fault. -/
def FaultRecord.fits (r : FaultRecord) (pc : Word) : Prop :=
  (r.word = none ↔ r.kind.hasNoWord = true) ∧ r.addr = if r.kind = .loadTooLarge then 0x200 else pc

/-- A good state: memory canonical; SP in 0..16 (R28); PC at most 0x10FE and every return address at most 4096, so that
PC never wraps (R25); a fault record, if there is one, as R35 gives it. -/
structure State.Good (s : State) : Prop where
  memCanonical : Memory.wf s.mem = true
  spInRange : s.sp.toNat ≤ Config.stackDepth
  pcInRange : s.pc.toNat ≤ 0x10FE
  returnsInRange : ∀ k : Fin 16, s.stack[k].toNat ≤ Config.memSize
  faultFits : ∀ r, s.fault = some r → r.fits s.pc

/-- The machine is halted by a fault (R160). -/
def State.faulted (s : State) : Bool := s.fault.isSome

/-- The word at PC is 1NNN with NNN = PC, a self-jump: a clean end (R194 (b)). -/
def State.selfJump (s : State) : Prop :=
  ∃ nnn : Imm12, Memory.readWord s.mem s.pc.toNat = some (encode (.jp nnn)) ∧ s.pc.toNat = nnn.toNat

/-- The end of a run (R194). -/
def State.ended (s : State) : Prop := s.faulted = true ∨ s.selfJump

/-- Reached by some schedule of transactions from a machine constructed with some values (R181, R186). -/
def Reached (s : State) : Prop :=
  ∃ (c : Construction) (ts : List Transaction) (outs : List Output),
    runTransactions ts (State.construct c) = .next (s, outs)

end Sys2Proof.Machine
end

