-- ==== Sys2Proof/Certificates/Slice0/Obligations.lean ====
section
/-! DEFINITION. The statements for the provers. `Sys2Proof.Claims` holds the words they share; each obligation's docstring
names the rule of spec/ it comes from and, where it rests on a decision or an inference of the spec or the model, that
decision or log entry. -/

open Sys2Proof Sys2Proof.Machine

/-! ### Shared words -/

namespace Sys2Proof.Claims

/-- A register index or row count as a nibble. -/
def nib (x : Fin 16) : BitVec 4 := BitVec.ofFin x

/-- The word of four nibbles, most significant first (R8). -/
def word4 (a b c d : BitVec 4) : Word := a ++ b ++ c ++ d

/-- The word of two nibbles and a byte. -/
def word2b (a b : BitVec 4) (nn : Byte) : Word := a ++ b ++ nn

/-- The word of a nibble and a 12-bit immediate. -/
def word12 (a : BitVec 4) (nnn : Imm12) : Word := a ++ nnn

/-- Fault `k` taken in the execute phase of the instruction `w` that was fetched at PC − 2: the state before its step
with only FAULT set (R90, R91). -/
def faultedBy (s : State) (k : Fault) (w : Word) : State :=
  { s with pc := s.pc - 2, fault := some ⟨k, s.pc - 2, some w⟩ }

/-- Apply `f` to the next state an outcome answers. -/
def onNext (f : State → State) : Result → Result
  | .next t => .next (f t)
  | .fault r => .fault r
  | .refused r => .refused r

/-- The sprite of `n` rows at I, drawn at (cx, cy), has a set bit that falls on pixel `p` (R143, R144, R145). -/
def Covers (s : State) (cx cy n : Nat) (p : Fin 2048) : Prop :=
  ∃ row col b, row < n ∧ col < 8 ∧ Memory.read s.mem (s.i.toNat + row) = some b ∧ b.getLsbD (7 - col) = true ∧
    p.val = (cx + col) % 64 + 64 * ((cy + row) % 32)

/-- The registers an instruction reads as operands: the middle column of R23's table. -/
def ReadsV (i : Instr) (r : Reg) : Prop :=
  match i with
  | .seImm x _ | .sneImm x _ | .addImm x _ | .shr x _ | .shl x _ | .skp x | .sknp x => r = x
  | .seReg x y | .sneReg x y | .orReg x y | .andReg x y | .xorReg x y => r = x ∨ r = y
  | .addReg x y | .sub x y | .subn x y | .drw x y _ => r = x ∨ r = y
  | .ldReg _ y => r = y
  | .jpV0 _ => r = 0
  | .ldDtVx x | .ldStVx x | .addIVx x | .ldFVx x | .ldBVx x => r = x
  | .ldMemVx x => r ≤ x
  | .cls | .ret | .jp _ | .call _ | .ldImm _ _ | .ldI _ | .rnd _ _ | .ldVxDt _ | .ldVxK _ | .ldVxMem _ => False

/-- The registers an instruction that does not fault writes, in a state: the last column of R23's table. -/
def WritesV (i : Instr) (s : State) (r : Reg) : Prop :=
  match i with
  | .ldImm x _ | .addImm x _ | .ldReg x _ | .orReg x _ | .andReg x _ | .xorReg x _ | .rnd x _ | .ldVxDt x => r = x
  | .addReg x _ | .sub x _ | .subn x _ | .shr x _ | .shl x _ => r = x ∨ r = 15
  | .drw _ _ _ => r = 15
  | .ldVxK x => r = x ∧ ∃ k : Fin 16, s.key[k] = true
  | .ldVxMem x => r ≤ x
  | .cls | .ret | .jp _ | .call _ | .seImm _ _ | .sneImm _ _ | .seReg _ _ | .sneReg _ _ | .ldI _ | .jpV0 _ => False
  | .skp _ | .sknp _ | .ldDtVx _ | .ldStVx _ | .addIVx _ | .ldFVx _ | .ldBVx _ | .ldMemVx _ => False

/-- Does PC move on by one word, given the tested condition? (R110) -/
def skipped (pc : Word) (c : Bool) : Word := if c then pc + 2 else pc

end Sys2Proof.Claims

open Sys2Proof.Claims

/-! ### Encoding and decoding -/

/-- Decoding the word, or the bytes, of an instruction gives the instruction back, for every value of every operand
(30_encoding.md R80, R86; the patterns are the spec's D4). -/
def Obligations.DecodeOfEncodeIsTheInstruction : Prop :=
  ∀ i : Instr, i.wellFormed = true →
    decode (encode i) = some i ∧ ∀ rest : List Byte, decodeBytes (encodeBytes i ++ rest) = some (i, rest)

/-- Encoding a decoded word gives the word back: each legal word has one meaning and no bit of it is dropped. -/
def Obligations.EncodeOfDecodeIsTheWord : Prop :=
  ∀ (w : Word) (i : Instr), decode w = some i → encode i = w

/-- Every pattern of the opcode map decodes to its instruction with every field read from its place, written out bit
field by bit field (30_encoding.md R75, R76, R80; the patterns are the spec's D4). -/
def Obligations.EveryPatternDecodesWithItsFields : Prop :=
  ∀ (x y n : Fin 16) (nn : Byte) (nnn : Imm12),
    decode (word4 0x0 0x0 0xE 0x0) = some .cls ∧
    decode (word4 0x0 0x0 0xE 0xE) = some .ret ∧
    decode (word12 0x1 nnn) = some (.jp nnn) ∧
    decode (word12 0x2 nnn) = some (.call nnn) ∧
    decode (word2b 0x3 (nib x) nn) = some (.seImm x nn) ∧
    decode (word2b 0x4 (nib x) nn) = some (.sneImm x nn) ∧
    decode (word4 0x5 (nib x) (nib y) 0x0) = some (.seReg x y) ∧
    decode (word2b 0x6 (nib x) nn) = some (.ldImm x nn) ∧
    decode (word2b 0x7 (nib x) nn) = some (.addImm x nn) ∧
    decode (word4 0x8 (nib x) (nib y) 0x0) = some (.ldReg x y) ∧
    decode (word4 0x8 (nib x) (nib y) 0x1) = some (.orReg x y) ∧
    decode (word4 0x8 (nib x) (nib y) 0x2) = some (.andReg x y) ∧
    decode (word4 0x8 (nib x) (nib y) 0x3) = some (.xorReg x y) ∧
    decode (word4 0x8 (nib x) (nib y) 0x4) = some (.addReg x y) ∧
    decode (word4 0x8 (nib x) (nib y) 0x5) = some (.sub x y) ∧
    decode (word4 0x8 (nib x) (nib y) 0x6) = some (.shr x y) ∧
    decode (word4 0x8 (nib x) (nib y) 0x7) = some (.subn x y) ∧
    decode (word4 0x8 (nib x) (nib y) 0xE) = some (.shl x y) ∧
    decode (word4 0x9 (nib x) (nib y) 0x0) = some (.sneReg x y) ∧
    decode (word12 0xA nnn) = some (.ldI nnn) ∧
    decode (word12 0xB nnn) = some (.jpV0 nnn) ∧
    decode (word2b 0xC (nib x) nn) = some (.rnd x nn) ∧
    decode (word4 0xD (nib x) (nib y) (nib n)) = some (.drw x y n) ∧
    decode (word4 0xE (nib x) 0x9 0xE) = some (.skp x) ∧
    decode (word4 0xE (nib x) 0xA 0x1) = some (.sknp x) ∧
    decode (word4 0xF (nib x) 0x0 0x7) = some (.ldVxDt x) ∧
    decode (word4 0xF (nib x) 0x0 0xA) = some (.ldVxK x) ∧
    decode (word4 0xF (nib x) 0x1 0x5) = some (.ldDtVx x) ∧
    decode (word4 0xF (nib x) 0x1 0x8) = some (.ldStVx x) ∧
    decode (word4 0xF (nib x) 0x1 0xE) = some (.addIVx x) ∧
    decode (word4 0xF (nib x) 0x2 0x9) = some (.ldFVx x) ∧
    decode (word4 0xF (nib x) 0x3 0x3) = some (.ldBVx x) ∧
    decode (word4 0xF (nib x) 0x5 0x5) = some (.ldMemVx x) ∧
    decode (word4 0xF (nib x) 0x6 0x5) = some (.ldVxMem x)

/-- A word decodes iff it selects a row of the opcode map, and no word selects two rows (30_encoding.md R80; the map is
the spec's D4). -/
def Obligations.DecodeAcceptsExactlyTheOpcodeMap : Prop :=
  ∀ w : Word,
    ((decode w).isSome = true ↔ ∃ r ∈ opcodeMap, w &&& r.mask = r.pattern) ∧
    ∀ r ∈ opcodeMap, ∀ r' ∈ opcodeMap, w &&& r.mask = r.pattern → w &&& r'.mask = r'.pattern → r = r'

/-- The illegal words are exactly the six sets listed in 30_encoding.md R81 (an inference the spec marks as its own). -/
def Obligations.IllegalWordsAreTheListedOnes : Prop :=
  ∀ a b c d : BitVec 4,
    decode (word4 a b c d) = none ↔
      (a = 0x0 ∧ ¬ (b = 0x0 ∧ c = 0xE ∧ d = 0x0) ∧ ¬ (b = 0x0 ∧ c = 0xE ∧ d = 0xE)) ∨
      (a = 0x5 ∧ d ≠ 0x0) ∨
      (a = 0x8 ∧ d ∈ [0x8, 0x9, 0xA, 0xB, 0xC, 0xD, 0xF]) ∨
      (a = 0x9 ∧ d ≠ 0x0) ∨
      (a = 0xE ∧ (c, d) ∉ [(0x9, 0xE), (0xA, 0x1)]) ∨
      (a = 0xF ∧ (c, d) ∉ [(0x0, 0x7), (0x0, 0xA), (0x1, 0x5), (0x1, 0x8), (0x1, 0xE), (0x2, 0x9), (0x3, 0x3),
        (0x5, 0x5), (0x6, 0x5)])

/-- A few words, at least one of each layout, decode to the instructions they stand for, and a few illegal ones do not
decode. The words are vectors of spec/95_test_vectors.md section 2, but for 0xF365, which is the pattern FX65 of
30_encoding.md R80 with x = 3. -/
def Obligations.SampleWordsDecode : Prop :=
  decode 0x00E0 = some .cls ∧ decode 0x2300 = some (.call 0x300) ∧ decode 0x3305 = some (.seImm 3 0x05) ∧
  decode 0x8F15 = some (.sub 15 1) ∧ decode 0xB123 = some (.jpV0 0x123) ∧ decode 0xDF11 = some (.drw 15 1 1) ∧
  decode 0xE0A1 = some (.sknp 0) ∧ decode 0xF365 = some (.ldVxMem 3) ∧
  decode 0x0123 = none ∧ decode 0x5121 = none ∧ decode 0x800F = none ∧ decode 0xF0FF = none

/-! ### The step -/

/-- When the bytes at PC decode to an instruction, a step of a machine that is not faulted is exec of that instruction in
the state with PC past its word, and nothing else (30_encoding.md R90; 00_scope.md R11). -/
def Obligations.StepRunsTheDecodedInstruction : Prop :=
  ∀ (s : State) (hi lo : Byte) (i : Instr),
    s.fault = none → Memory.read s.mem s.pc.toNat = some hi → Memory.read s.mem (s.pc.toNat + 1) = some lo →
    decode (hi ++ lo) = some i → i.wellFormed = true →
    step s = exec i { s with pc := s.pc + 2 }

/-- `tick()` line by line: a faulted machine is halted; FetchBounds with PC above 4094; DecodeFault for an illegal word;
else the instruction runs, and if it raised a fault the state is the one before the step with only FAULT set
(30_encoding.md R90; the record and the rollback are the spec's D10, the halt D16). The last clause, that only RND advances
`draws`, is about the model's own counter, which is no state of the spec (log entry 3, DESIGN CHOICE). -/
def Obligations.StepIsOneTick : Prop :=
  ∀ s : State,
    (s.fault ≠ none → step s = .next s) ∧
    (s.fault = none → s.pc.toNat > 4094 → step s = .next { s with fault := some ⟨.fetchBounds, s.pc, none⟩ }) ∧
    ∀ hi lo : Byte, s.fault = none → Memory.read s.mem s.pc.toNat = some hi →
      Memory.read s.mem (s.pc.toNat + 1) = some lo →
      (decode (hi ++ lo) = none → step s = .next { s with fault := some ⟨.decodeFault, s.pc, some (hi ++ lo)⟩ }) ∧
      ∀ i, decode (hi ++ lo) = some i →
        step s = exec i { s with pc := s.pc + 2 } ∧
        ∃ t, exec i { s with pc := s.pc + 2 } = .next t ∧
          (t.fault ≠ none → ∃ k, t = { s with fault := some ⟨k, s.pc, some (hi ++ lo)⟩ }) ∧
          t.draws = (match i with | .rnd _ _ => s.draws + 1 | _ => s.draws)

/-- The fetch: with PC above 4094 FetchBounds, recording PC and no word; else the word is the byte at PC followed by the
byte at PC + 1, big-endian, and PC is advanced by 2 before the instruction is given to execution (20_memory.md R58). -/
def Obligations.FetchReadsTheBigEndianWordAndAdvancesPC : Prop :=
  ∀ s : State, s.fault = none →
    (s.pc.toNat > 4094 → s.fetch = .ends { s with fault := some ⟨.fetchBounds, s.pc, none⟩ }) ∧
    (s.pc.toNat ≤ 4094 → ∃ hi lo : Byte,
      Memory.read s.mem s.pc.toNat = some hi ∧ Memory.read s.mem (s.pc.toNat + 1) = some lo ∧
      Memory.readWord s.mem s.pc.toNat = some (hi ++ lo) ∧
      (∀ i, decode (hi ++ lo) = some i → s.fetch = .runs i { s with pc := s.pc + 2 }) ∧
      (s.pc + 2).toNat = s.pc.toNat + 2)

/-- A fault an instruction raises is its own single check's of the list of 30_encoding.md R92 (the spec's D27), so a step
of a machine that is not faulted raises FetchBounds with PC above 4094, DecodeFault for an illegal word, or the decoded
instruction's own fault, recording PC and the word, and changes nothing but FAULT. -/
def Obligations.OnlyItsOwnCheckFaultsAnInstruction : Prop :=
  (∀ (i : Instr) (s t : State) (r : FaultRecord),
    s.fault = none → exec i s = .next t → t.fault = some r → i.ownFault = some r.kind) ∧
  ∀ (s t : State) (r : FaultRecord),
    s.fault = none → step s = .next t → t.fault = some r →
    t = { s with fault := some r } ∧ r.addr = s.pc ∧
      ((s.pc.toNat > 4094 ∧ r.kind = .fetchBounds ∧ r.word = none) ∨
        ∃ w, Memory.readWord s.mem s.pc.toNat = some w ∧ r.word = some w ∧
          ((decode w = none ∧ r.kind = .decodeFault) ∨ ∃ i, decode w = some i ∧ i.ownFault = some r.kind))

/-- A faulted machine is halted: whatever the host does, no state changes, no sound cue is emitted, and nothing is put out
but frames of the unchanged display (60_exceptions.md R160; the spec's D10 and D16). That `get_display` does put its frame
out is GetDisplayReturnsTheBitmap. -/
def Obligations.FaultedMachineIsHaltedForGood : Prop :=
  ∀ (s : State) (ts : List Transaction), s.fault ≠ none →
    ∃ outs, runTransactions ts s = .next (s, outs) ∧ ∀ o ∈ outs, o = Output.frame s.disp

/-- No step and no transaction stops the machine: each answers a next state, a fault being taken as a state with FAULT
set (the model's reading of R90 and R160: log entry 2). -/
def Obligations.EveryTransactionAnswersANextState : Prop :=
  (∀ s : State, ∃ t, step s = .next t) ∧ ∀ (t : Transaction) (s : State), ∃ s' outs, transact t s = .next (s', outs)

/-! ### Invariants -/

/-- The reset state is good. That SP is 0 and the stack slots are 0 at reset is the spec's D1 (10_state.md R38; log entry
4), that FAULT is none is its D10, and that memory is canonical is the model's own form (log entry 15, DESIGN CHOICE). -/
def Obligations.ResetIsGood : Prop := State.reset.Good

/-- Every step keeps a good state good: memory canonical, SP in 0..16, PC and the return addresses in range so that PC
never wraps, the fault record as R35 gives it (10_state.md R25, R28, R35, whose bounds the spec marks as D9, D10 and
derived; the canonical form is the model's, log entry 15, DESIGN CHOICE). -/
def Obligations.StepKeepsTheStateGood : Prop :=
  ∀ s t : State, s.Good → step s = .next t → t.Good

/-- Every state reached from any construction by any schedule of transactions is good: the schedules are 60_exceptions.md
R181 (the spec's D15), the start with PC 0x200, an empty stack and no fault is 10_state.md R38 (the spec's D1 and D10; log
entry 4), and the bounds are those of StepKeepsTheStateGood. The canonical form of memory is the model's own (log entry 15,
DESIGN CHOICE). -/
def Obligations.EveryReachedStateIsGood : Prop := ∀ s : State, Reached s → s.Good

/-- What each instruction that does not fault leaves in PC, from the PC it executes with (10_state.md R25, whose odd-PC
and no-wrap clauses the spec marks as D11 and derived). -/
def Obligations.EachInstructionLeavesPCAsListed : Prop :=
  ∀ (i : Instr) (s t : State), s.fault = none → exec i s = .next t → t.fault = none →
    match i with
    | .jp nnn | .call nnn => t.pc.toNat = nnn.toNat
    | .jpV0 nnn => t.pc.toNat = s.v[0].toNat + nnn.toNat
    | .ret => ∃ k : Fin 16, s.sp.toNat = k.val + 1 ∧ t.pc = s.stack[k]
    | .seImm x nn => t.pc = skipped s.pc (s.v[x] == nn)
    | .sneImm x nn => t.pc = skipped s.pc (s.v[x] != nn)
    | .seReg x y => t.pc = skipped s.pc (s.v[x] == s.v[y])
    | .sneReg x y => t.pc = skipped s.pc (s.v[x] != s.v[y])
    | .skp x => ∃ k : Fin 16, s.v[x].toNat = k.val ∧ t.pc = skipped s.pc s.key[k]
    | .sknp x => ∃ k : Fin 16, s.v[x].toNat = k.val ∧ t.pc = skipped s.pc (!s.key[k])
    | .ldVxK _ => t.pc = if ∃ k : Fin 16, s.key[k] = true then s.pc else s.pc - 2
    | _ => t.pc = s.pc

/-! ### Control flow -/

/-- CLS makes all 2048 pixels false and changes nothing else (40_control_flow.md, 00E0). -/
def Obligations.ClsClearsEveryPixel : Prop :=
  ∀ s : State, ∃ t, exec .cls s = .next t ∧ (∀ p, t.disp.get p = false) ∧ t = { s with disp := t.disp }

/-- RET with k+1 return addresses on the stack pops the top one into PC and leaves the slot as it is; with none it is
StackUnderflow and nothing else changes (40_control_flow.md, 00EE and Pop; the spec's D9). -/
def Obligations.RetPopsTheReturnAddress : Prop :=
  ∀ s : State,
    (∀ k : Fin 16, s.sp.toNat = k.val + 1 →
      exec .ret s = .next { s with pc := s.stack[k], sp := BitVec.ofNat 16 k.val }) ∧
    (s.sp = 0 → exec .ret s = .next (faultedBy s .stackUnderflow 0x00EE))

/-- CALL with k < 16 return addresses on the stack pushes PC, the address of the word after it, and jumps; with 16 it is
StackOverflow and nothing else changes (40_control_flow.md, 2NNN and Push; the spec's D9 and C1). -/
def Obligations.CallPushesTheReturnAddress : Prop :=
  ∀ (s : State) (nnn : Imm12),
    (∀ k : Fin 16, s.sp.toNat = k.val →
      exec (.call nnn) s = .next { s with
        stack := s.stack.set k.val s.pc k.isLt
        sp := BitVec.ofNat 16 (k.val + 1)
        pc := BitVec.ofNat 16 nnn.toNat }) ∧
    (s.sp = 16 → exec (.call nnn) s = .next (faultedBy s .stackOverflow (word12 0x2 nnn)))

/-- A CALL that does not fault, and then, in any state with the stack it left, a RET: PC is the address after the CALL
and SP is what it was (40_control_flow.md, Pop: "`pop` after `push(v)` returns `v`"; the spec's D9). -/
def Obligations.RetAfterCallReturns : Prop :=
  ∀ (s t u : State) (nnn : Imm12), s.fault = none → exec (.call nnn) s = .next t → t.fault = none →
    u.stack = t.stack → u.sp = t.sp → exec .ret u = .next { u with pc := s.pc, sp := s.sp }

/-- JP and JP V0 set PC to NNN and to V0 + NNN, an exact sum, and change nothing else (40_control_flow.md, 1NNN and
BNNN). -/
def Obligations.JumpsSetPC : Prop :=
  ∀ (s : State) (nnn : Imm12),
    exec (.jp nnn) s = .next { s with pc := BitVec.ofNat 16 nnn.toNat } ∧
    exec (.jpV0 nnn) s = .next { s with pc := BitVec.ofNat 16 (s.v[0].toNat + nnn.toNat) } ∧
    s.v[0].toNat + nnn.toNat ≤ 0x10FE

/-! ### Skips -/

/-- The four register skips move PC over one word exactly when their condition holds, and change nothing else
(41_conditional_skip.md). -/
def Obligations.RegisterSkipsMovePC : Prop :=
  ∀ (s : State) (x y : Reg) (nn : Byte),
    exec (.seImm x nn) s = .next { s with pc := if s.v[x] = nn then s.pc + 2 else s.pc } ∧
    exec (.sneImm x nn) s = .next { s with pc := if s.v[x] = nn then s.pc else s.pc + 2 } ∧
    exec (.seReg x y) s = .next { s with pc := if s.v[x] = s.v[y] then s.pc + 2 else s.pc } ∧
    exec (.sneReg x y) s = .next { s with pc := if s.v[x] = s.v[y] then s.pc else s.pc + 2 }

/-- The two key skips test the key whose index is Vx; with Vx above 15 they are KeyIndex and nothing else changes
(41_conditional_skip.md, EX9E and EXA1; the spec's D12). -/
def Obligations.KeySkipsTestTheKey : Prop :=
  ∀ (s : State) (x : Reg),
    (∀ k : Fin 16, s.v[x].toNat = k.val →
      exec (.skp x) s = .next { s with pc := if s.key[k] = true then s.pc + 2 else s.pc } ∧
      exec (.sknp x) s = .next { s with pc := if s.key[k] = true then s.pc else s.pc + 2 }) ∧
    (s.v[x].toNat > 15 →
      exec (.skp x) s = .next (faultedBy s .keyIndex (word2b 0xE (nib x) 0x9E)) ∧
      exec (.sknp x) s = .next (faultedBy s .keyIndex (word2b 0xE (nib x) 0xA1)))

/-! ### Register immediate and register-register -/

/-- LD Vx, NN and ADD Vx, NN: the sum wraps mod 256, no flag, nothing but Vx changes (42_register_immediate.md). -/
def Obligations.ImmediatesWriteVxOnly : Prop :=
  ∀ (s : State) (x : Reg) (nn : Byte),
    exec (.ldImm x nn) s = .next { s with v := s.v.set x nn } ∧
    exec (.addImm x nn) s = .next { s with v := s.v.set x (BitVec.ofNat 8 ((s.v[x].toNat + nn.toNat) % 256)) }

/-- Copy, OR, AND and XOR write Vx only; VF is not a flag in them (43_register_register.md, 8XY0 to 8XY3): each bit of
the result is that of the operation, and every other register is as before. -/
def Obligations.CopyAndLogicWriteVxOnly : Prop :=
  ∀ (s : State) (x y : Reg) (i : Instr) (f : Bool → Bool → Bool),
    (i, f) ∈ [(Instr.ldReg x y, fun _ b => b), (Instr.orReg x y, fun a b => a || b),
      (Instr.andReg x y, fun a b => a && b), (Instr.xorReg x y, fun a b => a != b)] →
    ∃ t, exec i s = .next t ∧
      (∀ k < 8, t.v[x].getLsbD k = f (s.v[x].getLsbD k) (s.v[y].getLsbD k)) ∧
      (∀ r : Reg, r ≠ x → t.v[r] = s.v[r]) ∧ t = { s with v := t.v }

/-- ADD Vx, Vy: Vx is the sum mod 256 and VF, written last, is 1 iff the sum exceeds 255 (43_register_register.md, 8XY4;
the order where x = F is the spec's D5). -/
def Obligations.AddWritesSumAndCarry : Prop :=
  ∀ (s : State) (x y : Reg),
    exec (.addReg x y) s = .next { s with
      v := (s.v.set x (BitVec.ofNat 8 ((s.v[x].toNat + s.v[y].toNat) % 256))).set 15
        (if s.v[x].toNat + s.v[y].toNat > 255 then 1 else 0) }

/-- SUB and SUBN: Vx is the difference mod 256 and VF, written last, is 1 iff there was no borrow
(43_register_register.md, 8XY5 and 8XY7; the order where x = F is the spec's D5). -/
def Obligations.SubtractionsWriteDifferenceAndNoBorrow : Prop :=
  ∀ (s : State) (x y : Reg),
    exec (.sub x y) s = .next { s with
      v := (s.v.set x (BitVec.ofNat 8 ((s.v[x].toNat + 256 - s.v[y].toNat) % 256))).set 15
        (if s.v[x].toNat ≥ s.v[y].toNat then 1 else 0) } ∧
    exec (.subn x y) s = .next { s with
      v := (s.v.set x (BitVec.ofNat 8 ((s.v[y].toNat + 256 - s.v[x].toNat) % 256))).set 15
        (if s.v[y].toNat ≥ s.v[x].toNat then 1 else 0) }

/-- SHR and SHL: Vx shifted in place by one, VF, written last, the bit shifted out, for every y
(43_register_register.md, 8XY6 and 8XYE; the spec's D5 and D6). -/
def Obligations.ShiftsWriteResultAndBitShiftedOut : Prop :=
  ∀ (s : State) (x y : Reg),
    exec (.shr x y) s = .next { s with
      v := (s.v.set x (BitVec.ofNat 8 (s.v[x].toNat / 2))).set 15 (BitVec.ofNat 8 (s.v[x].toNat % 2)) } ∧
    exec (.shl x y) s = .next { s with
      v := (s.v.set x (BitVec.ofNat 8 (s.v[x].toNat * 2 % 256))).set 15 (BitVec.ofNat 8 (s.v[x].toNat / 128)) }

/-- VF after each flag-writing instruction, for every x and y, VF itself among them, and its reset value (10_state.md
R26). That the flag is written last, which decides VF where x = F, is the spec's D5 (log entry 8); that SHR and SHL shift Vx
and not Vy is its D6 (log entry 9); that VF is 0 at reset is its D1 (log entry 4). -/
def Obligations.FlagAfterEachFlagWritingInstruction : Prop :=
  (∀ (s : State) (x y : Reg),
    (∃ t, exec (.addReg x y) s = .next t ∧ t.v[15] = if s.v[x].toNat + s.v[y].toNat ≥ 256 then 1 else 0) ∧
    (∃ t, exec (.sub x y) s = .next t ∧ t.v[15] = if s.v[x].toNat ≥ s.v[y].toNat then 1 else 0) ∧
    (∃ t, exec (.subn x y) s = .next t ∧ t.v[15] = if s.v[y].toNat ≥ s.v[x].toNat then 1 else 0) ∧
    (∃ t, exec (.shr x y) s = .next t ∧ t.v[15] = if s.v[x].getLsbD 0 then 1 else 0) ∧
    (∃ t, exec (.shl x y) s = .next t ∧ t.v[15] = if s.v[x].getLsbD 7 then 1 else 0)) ∧
  (∀ (s t : State) (x y : Reg) (n : RowCount), s.fault = none → exec (.drw x y n) s = .next t → t.fault = none →
    (t.v[15] = 0 ∨ t.v[15] = 1) ∧ (t.v[15] = 1 ↔ ∃ p, s.disp.get p = true ∧ t.disp.get p = false)) ∧
  State.reset.v[15] = 0

/-! ### Address register, random, timers -/

/-- LD I, NNN; ADD I, Vx, wrapping mod 65536 with no flag; LD F, Vx, I = Vx * 5 unmasked. Nothing but I changes
(44_address_register.md; the spec's D22 and D24). -/
def Obligations.AddressRegisterInstructionsWriteIOnly : Prop :=
  ∀ (s : State) (x : Reg) (nnn : Imm12),
    exec (.ldI nnn) s = .next { s with i := BitVec.ofNat 16 nnn.toNat } ∧
    exec (.addIVx x) s = .next { s with i := BitVec.ofNat 16 ((s.i.toNat + s.v[x].toNat) % 65536) } ∧
    exec (.ldFVx x) s = .next { s with i := BitVec.ofNat 16 (s.v[x].toNat * 5) }

/-- RND: Vx is the draw masked by NN, whatever the draw; the draw is used up; nothing else changes (45_random.md, CXNN;
the spec's D13, the free value of log entry 3). With NN = 0 the result is 0 and with NN = 0xFF it is the draw. -/
def Obligations.RndMasksTheDraw : Prop :=
  ∀ (s : State) (x : Reg) (nn : Byte),
    exec (.rnd x nn) s = .next { s with v := s.v.set x (Config.randomByte s.draws &&& nn), draws := s.draws + 1 } ∧
    exec (.rnd x 0x00) s = .next { s with v := s.v.set x 0, draws := s.draws + 1 } ∧
    exec (.rnd x 0xFF) s = .next { s with v := s.v.set x (Config.randomByte s.draws), draws := s.draws + 1 }

/-- The three timer transfers, each writing its destination only (47_timer_transfer.md). -/
def Obligations.TimerTransfersCopyTheByte : Prop :=
  ∀ (s : State) (x : Reg),
    exec (.ldVxDt x) s = .next { s with v := s.v.set x s.dt } ∧
    exec (.ldDtVx x) s = .next { s with dt := s.v[x] } ∧
    exec (.ldStVx x) s = .next { s with st := s.v[x] }

/-! ### Draw -/

/-- DXYN: with a sprite row outside memory it is MemBounds and nothing else changes; else exactly the pixels the sprite
covers are inverted, coordinates wrapping, VF is 1 iff a lit pixel was covered and else 0, and nothing else changes
(46_draw.md R145; the order of the bits in a row is R144's, the spec's D23). -/
def Obligations.DrawXorsTheSprite : Prop :=
  ∀ (s : State) (x y : Reg) (n : RowCount),
    decode (word4 0xD (nib x) (nib y) (nib n)) = some (.drw x y n) ∧
    (n.val > 0 ∧ s.i.toNat + n.val - 1 > 4095 →
      exec (.drw x y n) s = .next (faultedBy s .memBounds (word4 0xD (nib x) (nib y) (nib n)))) ∧
    (¬ (n.val > 0 ∧ s.i.toNat + n.val - 1 > 4095) →
      ∃ t, exec (.drw x y n) s = .next t ∧
        (∀ p, t.disp.get p = true ↔ ¬ (s.disp.get p = true ↔ Covers s s.v[x].toNat s.v[y].toNat n.val p)) ∧
        (t.v[15] = 0 ∨ t.v[15] = 1) ∧
        (t.v[15] = 1 ↔ ∃ p, s.disp.get p = true ∧ Covers s s.v[x].toNat s.v[y].toNat n.val p) ∧
        (∀ r : Reg, r ≠ 15 → t.v[r] = s.v[r]) ∧
        t = { s with disp := t.disp, v := t.v })

/-- Drawing the same sprite at the same place twice restores the display; on a clear display the first draw does not
collide and the second collides iff the sprite has a set bit (the source's "draw collision" property,
spec/95_test_vectors.md S4, for every sprite; VF is no coordinate here, since the first draw overwrites it). -/
def Obligations.DrawingTwiceRestoresTheDisplay : Prop :=
  ∀ (s t u : State) (x y : Reg) (n : RowCount), x ≠ 15 → y ≠ 15 → s.fault = none →
    exec (.drw x y n) s = .next t → t.fault = none → exec (.drw x y n) t = .next u →
    u.disp = s.disp ∧ u.fault = none ∧
    ((∀ p, s.disp.get p = false) → t.v[15] = 0 ∧
      (u.v[15] = 1 ↔ ∃ row b, row < n.val ∧ Memory.read s.mem (s.i.toNat + row) = some b ∧ b ≠ 0))

/-- DXYN and 00E0 are the only instructions that write the display, and no instruction lets a pixel into any state but
through DXYN's collision flag: two runs that differ only in the display differ after it only in the display and, for
DXYN, in VF (46_draw.md R146). -/
def Obligations.OnlyClsAndDrwTouchTheDisplay : Prop :=
  ∀ (i : Instr) (s : State) (d : Display),
    match i with
    | .cls => exec .cls { s with disp := d } = exec .cls s
    | .drw x y n => ∃ t t', exec (.drw x y n) s = .next t ∧ exec (.drw x y n) { s with disp := d } = .next t' ∧
        { t' with disp := t.disp, v := t'.v.set 15 t.v[15] } = t
    | i => (∀ t, exec i s = .next t → t.disp = s.disp) ∧
        exec i { s with disp := d } = onNext (fun t => { t with disp := d }) (exec i s)

/-! ### Keys -/

/-- FX0A: with a key pressed the lowest pressed index goes to Vx and nothing else changes; with none pressed PC is put
back by 2 and nothing else changes, so that a waiting step leaves the whole machine as it was (48_key_wait.md R152). -/
def Obligations.KeyWaitTakesTheLowestKeyOrRepeats : Prop :=
  (∀ x : Reg, decode (word2b 0xF (nib x) 0x0A) = some (.ldVxK x)) ∧
  (∀ (s : State) (x : Reg) (k : Fin 16), s.key[k] = true → (∀ j : Fin 16, j < k → s.key[j] = false) →
    exec (.ldVxK x) s = .next { s with v := s.v.set x (BitVec.ofNat 8 k.val) }) ∧
  (∀ (s : State) (x : Reg), (∀ j : Fin 16, s.key[j] = false) →
    exec (.ldVxK x) s = .next { s with pc := s.pc - 2 }) ∧
  ∀ (s : State) (x : Reg), s.fault = none → (∀ j : Fin 16, s.key[j] = false) →
    Memory.readWord s.mem s.pc.toNat = some (word2b 0xF (nib x) 0x0A) → step s = .next s

/-- KEY is changed by `keypress` alone, which sets the one key, does nothing in a faulted machine and is HostKeyIndex for
an index above 15; and only SKP, SKNP and LD Vx, K depend on it (60_exceptions.md R176; 10_state.md R32). -/
def Obligations.KeypadIsSetByKeypressAndReadByThree : Prop :=
  (∀ (s : State) (index : Nat) (pressed : Bool),
    (s.fault ≠ none → transact (.keypress index pressed) s = .next (s, [])) ∧
    (s.fault = none → index > 15 →
      transact (.keypress index pressed) s = .next ({ s with fault := some ⟨.hostKeyIndex, s.pc, none⟩ }, [])) ∧
    (s.fault = none → ∀ h : index < 16,
      transact (.keypress index pressed) s = .next ({ s with key := s.key.set index pressed h }, []))) ∧
  (∀ (tr : Transaction) (s t : State) (outs : List Output), transact tr s = .next (t, outs) →
    (∀ index pressed, tr ≠ .keypress index pressed) → t.key = s.key) ∧
  ∀ (i : Instr) (s : State) (k : Vector Bool 16),
    match i with
    | .skp _ | .sknp _ | .ldVxK _ => True
    | i => exec i { s with key := k } = onNext (fun t => { t with key := k }) (exec i s)

/-! ### Memory -/

/-- FX33: the three decimal digits of Vx at I, I+1, I+2, no other byte and nothing else changed; MemBounds, with nothing
else changed, if I + 2 is above 4095 (49_memory_block.md R156). -/
def Obligations.BcdStoresThreeDigits : Prop :=
  ∀ (s : State) (x : Reg),
    decode (word2b 0xF (nib x) 0x33) = some (.ldBVx x) ∧
    (s.i.toNat + 2 > 4095 →
      exec (.ldBVx x) s = .next (faultedBy s .memBounds (word2b 0xF (nib x) 0x33))) ∧
    (Memory.wf s.mem = true → s.i.toNat + 2 ≤ 4095 →
      ∃ t, exec (.ldBVx x) s = .next t ∧
        Memory.read t.mem s.i.toNat = some (BitVec.ofNat 8 (s.v[x].toNat / 100)) ∧
        Memory.read t.mem (s.i.toNat + 1) = some (BitVec.ofNat 8 (s.v[x].toNat / 10 % 10)) ∧
        Memory.read t.mem (s.i.toNat + 2) = some (BitVec.ofNat 8 (s.v[x].toNat % 10)) ∧
        (∀ a, a < s.i.toNat ∨ s.i.toNat + 2 < a → Memory.read t.mem a = Memory.read s.mem a) ∧
        t = { s with mem := t.mem })

/-- FX55: V0..Vx at I..I+x, no other byte and nothing else changed, I not either; MemBounds, with nothing else changed,
if I + x is above 4095 (49_memory_block.md R157). -/
def Obligations.DumpStoresV0ToVx : Prop :=
  ∀ (s : State) (x : Reg),
    decode (word2b 0xF (nib x) 0x55) = some (.ldMemVx x) ∧
    (s.i.toNat + x.val > 4095 →
      exec (.ldMemVx x) s = .next (faultedBy s .memBounds (word2b 0xF (nib x) 0x55))) ∧
    (Memory.wf s.mem = true → s.i.toNat + x.val ≤ 4095 →
      ∃ t, exec (.ldMemVx x) s = .next t ∧
        (∀ k : Fin 16, k ≤ x → Memory.read t.mem (s.i.toNat + k.val) = some s.v[k]) ∧
        (∀ a, a < s.i.toNat ∨ s.i.toNat + x.val < a → Memory.read t.mem a = Memory.read s.mem a) ∧
        t = { s with mem := t.mem })

/-- FX65: V0..Vx from I..I+x, every other register and everything else unchanged, I and memory too; MemBounds, with
nothing else changed, if I + x is above 4095 (49_memory_block.md R158). -/
def Obligations.LoadFillsV0ToVx : Prop :=
  ∀ (s : State) (x : Reg),
    decode (word2b 0xF (nib x) 0x65) = some (.ldVxMem x) ∧
    (s.i.toNat + x.val > 4095 →
      exec (.ldVxMem x) s = .next (faultedBy s .memBounds (word2b 0xF (nib x) 0x65))) ∧
    (s.i.toNat + x.val ≤ 4095 →
      ∃ t, exec (.ldVxMem x) s = .next t ∧
        (∀ k : Fin 16, k ≤ x → Memory.read s.mem (s.i.toNat + k.val) = some t.v[k]) ∧
        (∀ k : Fin 16, x < k → t.v[k] = s.v[k]) ∧
        t = { s with v := t.v })

/-- A dump and then a load of the same registers, in any state with the memory and the I the dump left, puts back the
dumped values (49_memory_block.md; the spec's D7 that I does not move). -/
def Obligations.LoadAfterDumpRestores : Prop :=
  ∀ (s t u w : State) (x : Reg), Memory.wf s.mem = true → s.fault = none → exec (.ldMemVx x) s = .next t →
    t.fault = none → u.mem = t.mem → u.i = t.i → exec (.ldVxMem x) u = .next w →
    ∀ k : Fin 16, k ≤ x → w.v[k] = s.v[k]

/-- A word stored by FX55 over the next instruction is the word the next step runs, with no fence (20_memory.md R64, an
inference the spec marks as its own, with D17). -/
def Obligations.NextStepRunsTheStoredWord : Prop :=
  ∀ (s t : State) (x : Reg) (i : Instr), Memory.wf s.mem = true → s.fault = none → 1 ≤ x.val →
    s.i = s.pc → exec (.ldMemVx x) s = .next t → t.fault = none → decode (s.v[0] ++ s.v[1]) = some i →
    step t = exec i { t with pc := t.pc + 2 }

/-- Two canonical memories that read the same at every address are the same data (the canonical form is the model's, log
entry 15; the address space is 20_memory.md R50). -/
def Obligations.CanonicalMemoriesAreEqualData : Prop :=
  ∀ m m' : Memory, Memory.wf m = true → Memory.wf m' = true → (∀ a, Memory.read m a = Memory.read m' a) → m = m'

/-! ### Whole-machine rules -/

/-- An instruction that does not fault changes only the V registers its row of R23's table says it writes, and neither
what it writes there nor anything else depends on a V register the row does not say it reads (10_state.md R23, an
inference the spec marks as its own). -/
def Obligations.RegisterAccessIsAsTabulated : Prop :=
  ∀ (i : Instr) (s t : State), s.fault = none → exec i s = .next t → t.fault = none →
    (∀ r, ¬ WritesV i s r → t.v[r] = s.v[r]) ∧
    ∀ v' : Vector Byte 16, (∀ r, ReadsV i r → v'[r] = s.v[r]) →
      ∃ t', exec i { s with v := v' } = .next t' ∧ t' = { t with v := t'.v } ∧
        (∀ r, WritesV i s r → t'.v[r] = t.v[r])

/-- Which instructions can change I, SP and the stack, DT, ST, memory, the display and the draw counter, and that none
changes KEY (10_state.md R27 to R32; 20_memory.md R51; 46_draw.md R146; the draw counter is the model's, log entry 3). -/
def Obligations.OnlyTheListedInstructionsChangeEachPart : Prop :=
  ∀ (i : Instr) (s t : State), exec i s = .next t →
    (t.i = s.i ∨ (∃ nnn, i = .ldI nnn) ∨ (∃ x, i = .addIVx x) ∨ ∃ x, i = .ldFVx x) ∧
    ((t.sp = s.sp ∧ t.stack = s.stack) ∨ (∃ nnn, i = .call nnn) ∨ (i = .ret ∧ t.stack = s.stack)) ∧
    (t.dt = s.dt ∨ ∃ x, i = .ldDtVx x) ∧
    (t.st = s.st ∨ ∃ x, i = .ldStVx x) ∧
    (t.mem = s.mem ∨ (∃ x, i = .ldBVx x) ∨ ∃ x, i = .ldMemVx x) ∧
    (t.disp = s.disp ∨ i = .cls ∨ ∃ x y n, i = .drw x y n) ∧
    (t.draws = s.draws ∨ ∃ x nn, i = .rnd x nn) ∧
    t.key = s.key

/-- No instruction reads ST: two runs that differ only in ST differ after any instruction only in ST (10_state.md R30, an
inference the spec marks as its own). -/
def Obligations.NoInstructionReadsTheSoundTimer : Prop :=
  ∀ (i : Instr) (s : State) (b : Byte),
    exec i { s with st := b } =
      onNext (fun t => match i with | .ldStVx _ => t | _ => { t with st := b }) (exec i s)

/-! ### Host transactions, reset and the end of a run -/

/-- `load` of at most 3584 bytes puts them at 0x200 onward and changes nothing else, PC, registers, display, keys and
timers not either (20_memory.md R55; the spec's D18: at any time the machine is not faulted), and it keeps memory
canonical, which is the model's own form (log entry 15, DESIGN CHOICE). -/
def Obligations.ProgramLoadCopiesTheBytes : Prop :=
  ∀ (s : State) (bytes : List Byte), Memory.wf s.mem = true → s.fault = none → bytes.length ≤ 3584 →
    ∃ t, transact (.load bytes) s = .next (t, []) ∧
      (∀ k, ∀ h : k < bytes.length, Memory.read t.mem (0x200 + k) = some bytes[k]) ∧
      (∀ a, a < 0x200 ∨ 0x200 + bytes.length ≤ a → Memory.read t.mem a = Memory.read s.mem a) ∧
      Memory.wf t.mem = true ∧ t = { s with mem := t.mem }

/-- `load` of more than 3584 bytes is LoadTooLarge and writes no byte (20_memory.md R56). That the record's address is 0x200
and its word none is 10_state.md R35 with 60_exceptions.md R161 (the spec's D10; log entry 16), and that the fault halts the
machine is R167 (the spec's D18; log entry 23). -/
def Obligations.OversizeProgramLoadIsRejected : Prop :=
  ∀ (s : State) (bytes : List Byte), s.fault = none → bytes.length > 3584 →
    transact (.load bytes) s = .next ({ s with fault := some ⟨.loadTooLarge, 0x200, none⟩ }, [])

/-- One timer step: both timers down by one, floored at 0, the cue emitted iff ST was 1, nothing else changed, and nothing
at all in a faulted machine; no other transaction decrements a timer: a tick leaves DT and ST alone unless it runs FX15
or FX18, and the other transactions leave both alone (60_exceptions.md R174). -/
def Obligations.TimerStepDecrementsBothTimers : Prop :=
  (∀ s : State, s.fault ≠ none → transact .tickTimers s = .next (s, [])) ∧
  (∀ s : State, s.fault = none →
    transact .tickTimers s = .next
      ({ s with dt := BitVec.ofNat 8 (s.dt.toNat - 1), st := BitVec.ofNat 8 (s.st.toNat - 1) },
        if s.st.toNat = 1 then [.soundCue] else [])) ∧
  (∀ s t : State, step s = .next t →
    (t.dt = s.dt ∨ ∃ x u, s.fetch = .runs (.ldDtVx x) u) ∧ (t.st = s.st ∨ ∃ x u, s.fetch = .runs (.ldStVx x) u)) ∧
  ∀ (tr : Transaction) (s t : State) (outs : List Output), tr ≠ .tickTimers → transact tr s = .next (t, outs) →
    Output.soundCue ∉ outs ∧ (tr ≠ .tick → t.dt = s.dt ∧ t.st = s.st)

/-- `get_display` returns the current bitmap, changes nothing, and is allowed in the faulted state (60_exceptions.md
R177). -/
def Obligations.GetDisplayReturnsTheBitmap : Prop :=
  ∀ s : State, transact .getDisplay s = .next (s, [.frame s.disp])

/-- At a self-jump every further tick leaves the state unchanged (70_reset_and_hazards.md R194 (b), the spec's D25), and
it leaves a faulted machine unchanged too: the end of a run is a fixed point of `tick`. -/
def Obligations.EndOfARunIsAFixedPointOfTick : Prop := ∀ s : State, s.ended → step s = .next s

/-- The construction state: PC 0x200 and no fault, an empty stack, every register, timer, pixel and key at zero or false,
the default glyphs at 0..79 and zero bytes after them (10_state.md R34, R38; all but PC and the place of the glyph set are
the spec's D1, D2, D3 and D10: log entries 4 to 6). -/
def Obligations.ResetStateIsAsTabulated : Prop :=
  State.reset.pc = 0x200 ∧ State.reset.fault = none ∧ State.reset.sp = 0 ∧ State.reset.i = 0 ∧
  State.reset.dt = 0 ∧ State.reset.st = 0 ∧
  (∀ r : Fin 16, State.reset.v[r] = 0 ∧ State.reset.stack[r] = 0 ∧ State.reset.key[r] = false) ∧
  (∀ p, State.reset.disp.get p = false) ∧
  glyphSet.length = 80 ∧
  (∀ a, a < 80 → Memory.read State.reset.mem a = glyphSet[a]?) ∧
  (∀ a, 80 ≤ a → a < 4096 → Memory.read State.reset.mem a = some 0) ∧
  (∀ a, 4096 ≤ a → Memory.read State.reset.mem a = none)

/-- Construction with other parameters: whatever the glyph bytes and the other construction values are, glyph d occupies
5d .. 5d+4, the rest of memory is as given, PC is 0x200 and the machine is not faulted (10_state.md R34, R38; the
parameters are 00_scope.md R7 and the spec's D1 to D3). -/
def Obligations.ConstructionPlacesTheGlyphSet : Prop :=
  ∀ c : Construction,
    (∀ (d : Fin 16) (k : Nat) (h : k < 5),
      Memory.read (State.construct c).mem (5 * d.val + k) = some (c.glyphs[5 * d.val + k]'(by show _ < 80; omega))) ∧
    (∀ (k : Nat) (h : k < 4016), Memory.read (State.construct c).mem (80 + k) = some (c.initMem[k]'h)) ∧
    (State.construct c).pc = 0x200 ∧ (State.construct c).fault = none ∧ (State.construct c).sp = 0

/-- A tick before any load executes the construction contents of 0x200, the illegal word 0x0000, and is DecodeFault there
(70_reset_and_hazards.md R188, an inference the spec marks as its own from D2). -/
def Obligations.TickBeforeLoadIsADecodeFault : Prop :=
  step State.reset = .next { State.reset with fault := some ⟨.decodeFault, 0x200, some 0x0000⟩ }

/-- The step after the host has placed a word at the fetch address runs exactly that word's instruction (the model's
interface, log entry 14). -/
def Obligations.StepRunsThePlacedWord : Prop :=
  ∀ (s : State) (w : Word) (i : Instr), Memory.wf s.mem = true → decode w = some i →
    decodeTableWord 16 w.toNat = some i ∧
    ∃ t, (s.withFetchWord 16 w.toNat).fetch = .runs i t ∧
      step (s.withFetchWord 16 w.toNat) = exec i t ∧
      t.pc = (s.withFetchWord 16 w.toNat).pc + 2 ∧
      (s.fault = none → s.pc.toNat ≤ 4094 → t = { s with pc := s.pc + 2, mem := t.mem })
end

