-- ==== Sys2Proof/Laws/Decode.lean ====
section
/-! SUPPORT. The fields of a packed word (R75, R76), its bits under the masks of the opcode map (R80), and the bytes of a
word (R53): each is read off bit by bit. -/

namespace Sys2Proof

theorem nibble_toFin (x : Fin 16) : (nibble x).toFin = x := by
  apply Fin.ext; simp [nibble]

theorem nibble_ofFin (n : BitVec 4) : nibble n.toFin = n := by
  apply BitVec.eq_of_toNat_eq; simp [nibble]

/-! ### Fields of the three layouts -/

@[simp] theorem fieldF_packNNN (f : BitVec 4) (nnn : Imm12) : fieldF (packNNN f nnn) = f := by
  apply BitVec.eq_of_getLsbD_eq
  intro k hk
  simp only [fieldF, packNNN]
  interval_cases k <;> simp only [BitVec.getLsbD_extractLsb', BitVec.getLsbD_append] <;> simp

@[simp] theorem fieldNNN_packNNN (f : BitVec 4) (nnn : Imm12) : fieldNNN (packNNN f nnn) = nnn := by
  apply BitVec.eq_of_getLsbD_eq
  intro k hk
  simp only [fieldNNN, packNNN]
  interval_cases k <;> simp only [BitVec.getLsbD_extractLsb', BitVec.getLsbD_append] <;> simp

@[simp] theorem fieldF_packXNN (f : BitVec 4) (x : Reg) (nn : Byte) : fieldF (packXNN f x nn) = f := by
  apply BitVec.eq_of_getLsbD_eq
  intro k hk
  simp only [fieldF, packXNN]
  interval_cases k <;> simp only [BitVec.getLsbD_extractLsb', BitVec.getLsbD_append] <;> simp

@[simp] theorem fieldNN_packXNN (f : BitVec 4) (x : Reg) (nn : Byte) : fieldNN (packXNN f x nn) = nn := by
  apply BitVec.eq_of_getLsbD_eq
  intro k hk
  simp only [fieldNN, packXNN]
  interval_cases k <;> simp only [BitVec.getLsbD_extractLsb', BitVec.getLsbD_append] <;> simp

@[simp] theorem fieldF_packXYN (f : BitVec 4) (x y : Reg) (n : BitVec 4) : fieldF (packXYN f x y n) = f := by
  apply BitVec.eq_of_getLsbD_eq
  intro k hk
  simp only [fieldF, packXYN]
  interval_cases k <;> simp only [BitVec.getLsbD_extractLsb', BitVec.getLsbD_append] <;> simp

@[simp] theorem fieldN_packXYN (f : BitVec 4) (x y : Reg) (n : BitVec 4) : fieldN (packXYN f x y n) = n := by
  apply BitVec.eq_of_getLsbD_eq
  intro k hk
  simp only [fieldN, packXYN]
  interval_cases k <;> simp only [BitVec.getLsbD_extractLsb', BitVec.getLsbD_append] <;> simp

@[simp] theorem fieldX_packXNN (f : BitVec 4) (x : Reg) (nn : Byte) : fieldX (packXNN f x nn) = x := by
  have h : (packXNN f x nn).extractLsb' 8 4 = nibble x := by
    apply BitVec.eq_of_getLsbD_eq
    intro k hk
    simp only [packXNN]
    interval_cases k <;> simp only [BitVec.getLsbD_extractLsb', BitVec.getLsbD_append] <;> simp
  rw [fieldX, h]; exact nibble_toFin x

@[simp] theorem fieldX_packXYN (f : BitVec 4) (x y : Reg) (n : BitVec 4) : fieldX (packXYN f x y n) = x := by
  have h : (packXYN f x y n).extractLsb' 8 4 = nibble x := by
    apply BitVec.eq_of_getLsbD_eq
    intro k hk
    simp only [packXYN]
    interval_cases k <;> simp only [BitVec.getLsbD_extractLsb', BitVec.getLsbD_append] <;> simp
  rw [fieldX, h]; exact nibble_toFin x

@[simp] theorem fieldY_packXYN (f : BitVec 4) (x y : Reg) (n : BitVec 4) : fieldY (packXYN f x y n) = y := by
  have h : (packXYN f x y n).extractLsb' 4 4 = nibble y := by
    apply BitVec.eq_of_getLsbD_eq
    intro k hk
    simp only [packXYN]
    interval_cases k <;> simp only [BitVec.getLsbD_extractLsb', BitVec.getLsbD_append] <;> simp
  rw [fieldY, h]; exact nibble_toFin y

/-! ### A word is packed from its own fields -/

theorem packNNN_fields (w : Word) : packNNN (fieldF w) (fieldNNN w) = w := by
  apply BitVec.eq_of_getLsbD_eq
  intro k hk
  simp only [packNNN, fieldF, fieldNNN]
  interval_cases k <;> simp only [BitVec.getLsbD_append, BitVec.getLsbD_extractLsb'] <;> simp

theorem packXNN_fields (w : Word) : packXNN (fieldF w) (fieldX w) (fieldNN w) = w := by
  apply BitVec.eq_of_getLsbD_eq
  intro k hk
  simp only [packXNN, fieldF, fieldX, fieldNN, nibble_ofFin]
  interval_cases k <;> simp only [BitVec.getLsbD_append, BitVec.getLsbD_extractLsb'] <;> simp

theorem packXYN_fields (w : Word) : packXYN (fieldF w) (fieldX w) (fieldY w) (fieldN w) = w := by
  apply BitVec.eq_of_getLsbD_eq
  intro k hk
  simp only [packXYN, fieldF, fieldX, fieldY, fieldN, nibble_ofFin]
  interval_cases k <;> simp only [BitVec.getLsbD_append, BitVec.getLsbD_extractLsb'] <;> simp

/-! ### A packed word under a mask of the opcode map -/

theorem packNNN_and_F000 (f : BitVec 4) (nnn : Imm12) : packNNN f nnn &&& 0xF000#16 = packNNN f 0 := by
  apply BitVec.eq_of_getLsbD_eq
  intro k hk
  simp only [packNNN]
  interval_cases k <;> simp only [BitVec.getLsbD_and, BitVec.getLsbD_append] <;> simp

theorem packXNN_and_F000 (f : BitVec 4) (x : Reg) (nn : Byte) : packXNN f x nn &&& 0xF000#16 = packNNN f 0 := by
  apply BitVec.eq_of_getLsbD_eq
  intro k hk
  simp only [packXNN, packNNN]
  interval_cases k <;> simp only [BitVec.getLsbD_and, BitVec.getLsbD_append] <;> simp

theorem packXYN_and_F000 (f : BitVec 4) (x y : Reg) (n : BitVec 4) : packXYN f x y n &&& 0xF000#16 = packNNN f 0 := by
  apply BitVec.eq_of_getLsbD_eq
  intro k hk
  simp only [packXYN, packNNN]
  interval_cases k <;> simp only [BitVec.getLsbD_and, BitVec.getLsbD_append] <;> simp

theorem packXNN_and_F0FF (f : BitVec 4) (x : Reg) (nn : Byte) : packXNN f x nn &&& 0xF0FF#16 = packXNN f 0 nn := by
  apply BitVec.eq_of_getLsbD_eq
  intro k hk
  simp only [packXNN, show nibble 0 = 0#4 from rfl]
  interval_cases k <;> simp only [BitVec.getLsbD_and, BitVec.getLsbD_append] <;> simp

theorem packXYN_and_F00F (f : BitVec 4) (x y : Reg) (n : BitVec 4) : packXYN f x y n &&& 0xF00F#16 = packXYN f 0 0 n := by
  apply BitVec.eq_of_getLsbD_eq
  intro k hk
  simp only [packXYN, show nibble 0 = 0#4 from rfl]
  interval_cases k <;> simp only [BitVec.getLsbD_and, BitVec.getLsbD_append] <;> simp

/-! ### The two bytes of a word -/

@[simp] theorem wordOfBytes_high_low (w : Word) : wordOfBytes (highByte w) (lowByte w) = w := by
  apply BitVec.eq_of_getLsbD_eq
  intro k hk
  simp only [wordOfBytes, highByte, lowByte]
  interval_cases k <;> simp only [BitVec.getLsbD_append, BitVec.getLsbD_extractLsb'] <;> simp

@[simp] theorem highByte_wordOfBytes (hi lo : Byte) : highByte (wordOfBytes hi lo) = hi := by
  apply BitVec.eq_of_getLsbD_eq
  intro k hk
  simp only [wordOfBytes, highByte]
  interval_cases k <;> simp only [BitVec.getLsbD_extractLsb', BitVec.getLsbD_append] <;> simp

@[simp] theorem lowByte_wordOfBytes (hi lo : Byte) : lowByte (wordOfBytes hi lo) = lo := by
  apply BitVec.eq_of_getLsbD_eq
  intro k hk
  simp only [wordOfBytes, lowByte]
  interval_cases k <;> simp only [BitVec.getLsbD_extractLsb', BitVec.getLsbD_append] <;> simp

end Sys2Proof
end

