-- ==== Sys2Proof/Laws/Memory.lean ====
section
/-! SUPPORT. What the memory operations do: read after write, and that each of them keeps the canonical form. -/

namespace Sys2Proof.Machine

variable {m m' : Memory} {a p lo n : Nat} {b : Byte} {bs : List Byte}

@[simp] theorem Memory.byteAt_nil (a : Nat) : Memory.byteAt [] a = Memory.initial a := rfl

theorem Memory.wfFrom_cons {k : Nat} :
    Memory.wfFrom lo ((k, b) :: m) = true ↔
      lo ≤ k ∧ k < 4096 ∧ b ≠ Memory.initial k ∧ Memory.wfFrom (k + 1) m = true := by
  simp [Memory.wfFrom, and_assoc]

/-- A list that starts later is also one that starts earlier. -/
theorem Memory.wfFrom_mono {lo' : Nat} (h : Memory.wfFrom lo m = true) (hl : lo' ≤ lo) :
    Memory.wfFrom lo' m = true := by
  cases m with
  | nil => rfl
  | cons c m =>
    obtain ⟨k, b⟩ := c
    rw [Memory.wfFrom_cons] at *
    exact ⟨by omega, h.2⟩

/-- An address below a canonical list's start reads as at construction. -/
theorem Memory.byteAt_below (h : Memory.wfFrom lo m = true) (ha : a < lo) :
    Memory.byteAt m a = Memory.initial a := by
  induction m generalizing lo with
  | nil => rfl
  | cons c m ih =>
    obtain ⟨k, b⟩ := c
    rw [Memory.wfFrom_cons] at h
    rw [Memory.byteAt, if_neg (by omega)]
    exact ih h.2.2.2 (by omega)

/-- A write leaves every other address alone, whatever the list. -/
theorem Memory.byteAt_put_ne (hp : p ≠ a) : Memory.byteAt (Memory.put m a b) p = Memory.byteAt m p := by
  induction m with
  | nil => simp only [Memory.put]; split <;> simp [Memory.byteAt, hp]
  | cons c m ih =>
    obtain ⟨k, c⟩ := c
    simp only [Memory.put]
    split
    · split <;> simp [Memory.byteAt, hp]
    · split
      · subst k; split <;> simp [Memory.byteAt, hp]
      · simp only [Memory.byteAt, ih]

/-- A read after a write to the same place gives the byte written. -/
theorem Memory.byteAt_put_self_from (h : Memory.wfFrom lo m = true) :
    Memory.byteAt (Memory.put m a b) a = b := by
  induction m generalizing lo with
  | nil => simp only [Memory.put]; split <;> simp_all [Memory.byteAt]
  | cons c m ih =>
    obtain ⟨k, c⟩ := c
    have hw := h
    rw [Memory.wfFrom_cons] at h
    simp only [Memory.put]
    split
    · split
      · rw [Memory.byteAt, if_neg (by omega), Memory.byteAt_below h.2.2.2 (by omega)]; simp_all
      · simp [Memory.byteAt]
    · split
      · split
        · rw [Memory.byteAt_below h.2.2.2 (by omega)]; simp_all
        · simp [Memory.byteAt]
      · rw [Memory.byteAt, if_neg ‹_›]; exact ih h.2.2.2

theorem Memory.byteAt_put (h : Memory.wf m = true) :
    Memory.byteAt (Memory.put m a b) p = if p = a then b else Memory.byteAt m p := by
  split
  · subst p; exact Memory.byteAt_put_self_from h
  · exact Memory.byteAt_put_ne ‹_›

theorem Memory.wfFrom_put (h : Memory.wfFrom lo m = true) (hl : lo ≤ a) (ha : a < 4096) :
    Memory.wfFrom lo (Memory.put m a b) = true := by
  induction m generalizing lo with
  | nil =>
    simp only [Memory.put]
    split
    · rfl
    · rw [Memory.wfFrom_cons]; exact ⟨hl, ha, ‹_›, rfl⟩
  | cons c m ih =>
    obtain ⟨k, c⟩ := c
    have hw := h
    rw [Memory.wfFrom_cons] at h
    simp only [Memory.put]
    split
    · split
      · exact hw
      · rw [Memory.wfFrom_cons]; exact ⟨hl, ha, ‹_›, Memory.wfFrom_cons.2 ⟨by omega, h.2⟩⟩
    · split
      · subst k
        split
        · exact Memory.wfFrom_mono h.2.2.2 (by omega)
        · exact Memory.wfFrom_cons.2 ⟨h.1, h.2.1, ‹_›, h.2.2.2⟩
      · exact Memory.wfFrom_cons.2 ⟨h.1, h.2.1, h.2.2.1, ih h.2.2.2 (by omega)⟩

/-- Writing a byte of the address space keeps the canonical form. -/
theorem Memory.wf_put (h : Memory.wf m = true) (ha : a < 4096) : Memory.wf (Memory.put m a b) = true :=
  Memory.wfFrom_put h (Nat.zero_le _) ha

theorem Memory.wf_write (h : Memory.wf m = true) (hm : Memory.write m a b = some m') : Memory.wf m' = true := by
  unfold Memory.write at hm
  split at hm
  · cases hm; exact Memory.wf_put h ‹_›
  · cases hm

theorem Memory.wf_fill (h : Memory.wf m = true) (ha : a + bs.length ≤ 4096) :
    Memory.wf (Memory.fill m a bs) = true := by
  induction bs generalizing m a with
  | nil => exact h
  | cons b bs ih =>
    simp only [List.length_cons] at ha
    exact ih (Memory.wf_put h (by omega)) (by omega)

/-- Every byte after a run of writes: the written ones, and every other as before. -/
theorem Memory.byteAt_fill (h : Memory.wf m = true) (ha : a + bs.length ≤ 4096) :
    Memory.byteAt (Memory.fill m a bs) p =
      if a ≤ p ∧ p < a + bs.length then bs.getD (p - a) 0 else Memory.byteAt m p := by
  induction bs generalizing m a with
  | nil => rw [if_neg (by simp)]; rfl
  | cons b bs ih =>
    simp only [List.length_cons] at ha
    rw [Memory.fill, ih (Memory.wf_put h (by omega)) (by omega), Memory.byteAt_put h]
    simp only [List.length_cons]
    by_cases hp : p = a
    · subst hp; rw [if_neg (by omega), if_pos rfl, if_pos (by omega)]; simp
    · rw [if_neg hp]
      by_cases hq : a + 1 ≤ p ∧ p < a + 1 + bs.length
      · rw [if_pos hq, if_pos (by omega), show p - a = (p - (a + 1)) + 1 by omega]; rfl
      · rw [if_neg hq, if_neg (by omega)]

/-- Bytes outside a run of writes are as before, whatever the list. -/
theorem Memory.byteAt_fill_outside (hp : p < a ∨ a + bs.length ≤ p) :
    Memory.byteAt (Memory.fill m a bs) p = Memory.byteAt m p := by
  induction bs generalizing m a with
  | nil => rfl
  | cons b bs ih =>
    simp only [List.length_cons] at hp
    rw [Memory.fill, ih (by omega), Memory.byteAt_put_ne (by omega)]

/-- What a run of checked writes answers: all of them, or none where an address does not exist (R52). -/
theorem Memory.writeBytes_eq :
    Memory.writeBytes m a bs = if bs = [] ∨ a + bs.length ≤ 4096 then some (Memory.fill m a bs) else none := by
  induction bs generalizing m a with
  | nil => simp [Memory.writeBytes, Memory.fill]
  | cons b bs ih =>
    simp only [Memory.writeBytes, Memory.write, Config.memSize, List.length_cons, Memory.fill]
    by_cases ha : a < 4096
    · simp only [if_pos ha, ih]
      by_cases hb : bs = []
      · subst hb; simp; omega
      · simp only [hb, false_or, reduceCtorEq]
        congr 1; simp; omega
    · simp [ha]; omega

/-- What a run of checked reads answers (R52). -/
theorem Memory.readBytes_eq :
    Memory.readBytes m a n =
      if n = 0 ∨ a + n ≤ 4096 then some ((List.range n).map fun k => Memory.byteAt m (a + k)) else none := by
  induction n generalizing a with
  | zero => simp [Memory.readBytes]
  | succ n ih =>
    simp only [Memory.readBytes, Memory.read, Config.memSize, ih]
    by_cases ha : a + (n + 1) ≤ 4096
    · rw [if_pos (show a < 4096 by omega), if_pos (show n = 0 ∨ a + 1 + n ≤ 4096 by omega), if_pos (Or.inr ha)]
      simp [List.range_succ_eq_map, Function.comp_def, Nat.add_assoc, Nat.add_comm 1]
    · rw [if_neg (show ¬ (n + 1 = 0 ∨ a + (n + 1) ≤ 4096) by omega)]
      by_cases h0 : a < 4096
      · rw [if_pos h0, if_neg (show ¬ (n = 0 ∨ a + 1 + n ≤ 4096) by omega)]
      · rw [if_neg h0]

/-- What a word read answers (R53, R58). -/
theorem Memory.readWord_eq :
    Memory.readWord m a =
      if a ≤ 4094 then some (Memory.byteAt m a ++ Memory.byteAt m (a + 1)) else none := by
  simp only [Memory.readWord, Memory.read, Config.memSize]
  by_cases h : a ≤ 4094
  · rw [if_pos (show a < 4096 by omega), if_pos (show a + 1 < 4096 by omega), if_pos h]; rfl
  · rw [if_neg h, if_neg (show ¬ a + 1 < 4096 by omega)]
    split <;> simp_all

theorem Memory.wf_writeBytes (h : Memory.wf m = true) (hm : Memory.writeBytes m a bs = some m') :
    Memory.wf m' = true := by
  rw [Memory.writeBytes_eq] at hm
  split at hm
  · cases hm
    rename_i hc
    rcases hc with hc | hc
    · subst hc; exact h
    · exact Memory.wf_fill h hc
  · cases hm

/-- The memory of the reset state is canonical. -/
theorem Memory.wf_reset : Memory.wf State.reset.mem = true := rfl

end Sys2Proof.Machine
end

