-- ==== Sys2Proof/Laws/State.lean ====
section
/-! SUPPORT. One lemma per field per update of the state, so that no later proof unfolds a record update. -/

namespace Sys2Proof.Machine

variable (s : State)

/-! #### writeV -/

@[simp] theorem State.writeV_mem (x : Reg) (b : Byte) : (s.writeV x b).mem = s.mem := rfl
@[simp] theorem State.writeV_v (x : Reg) (b : Byte) : (s.writeV x b).v = s.v.set x b := rfl
@[simp] theorem State.writeV_i (x : Reg) (b : Byte) : (s.writeV x b).i = s.i := rfl
@[simp] theorem State.writeV_pc (x : Reg) (b : Byte) : (s.writeV x b).pc = s.pc := rfl
@[simp] theorem State.writeV_sp (x : Reg) (b : Byte) : (s.writeV x b).sp = s.sp := rfl
@[simp] theorem State.writeV_stack (x : Reg) (b : Byte) : (s.writeV x b).stack = s.stack := rfl
@[simp] theorem State.writeV_disp (x : Reg) (b : Byte) : (s.writeV x b).disp = s.disp := rfl
@[simp] theorem State.writeV_key (x : Reg) (b : Byte) : (s.writeV x b).key = s.key := rfl
@[simp] theorem State.writeV_dt (x : Reg) (b : Byte) : (s.writeV x b).dt = s.dt := rfl
@[simp] theorem State.writeV_st (x : Reg) (b : Byte) : (s.writeV x b).st = s.st := rfl
@[simp] theorem State.writeV_fault (x : Reg) (b : Byte) : (s.writeV x b).fault = s.fault := rfl
@[simp] theorem State.writeV_draws (x : Reg) (b : Byte) : (s.writeV x b).draws = s.draws := rfl

/-! #### loadRegs -/

@[simp] theorem State.loadRegs_mem (bs : List Byte) : (s.loadRegs bs).mem = s.mem := rfl
@[simp] theorem State.loadRegs_v (bs : List Byte) : (s.loadRegs bs).v = setRegsFrom s.v 0 bs := rfl
@[simp] theorem State.loadRegs_i (bs : List Byte) : (s.loadRegs bs).i = s.i := rfl
@[simp] theorem State.loadRegs_pc (bs : List Byte) : (s.loadRegs bs).pc = s.pc := rfl
@[simp] theorem State.loadRegs_sp (bs : List Byte) : (s.loadRegs bs).sp = s.sp := rfl
@[simp] theorem State.loadRegs_stack (bs : List Byte) : (s.loadRegs bs).stack = s.stack := rfl
@[simp] theorem State.loadRegs_disp (bs : List Byte) : (s.loadRegs bs).disp = s.disp := rfl
@[simp] theorem State.loadRegs_key (bs : List Byte) : (s.loadRegs bs).key = s.key := rfl
@[simp] theorem State.loadRegs_dt (bs : List Byte) : (s.loadRegs bs).dt = s.dt := rfl
@[simp] theorem State.loadRegs_st (bs : List Byte) : (s.loadRegs bs).st = s.st := rfl
@[simp] theorem State.loadRegs_fault (bs : List Byte) : (s.loadRegs bs).fault = s.fault := rfl
@[simp] theorem State.loadRegs_draws (bs : List Byte) : (s.loadRegs bs).draws = s.draws := rfl

/-! #### writeI -/

@[simp] theorem State.writeI_mem (a : Word) : (s.writeI a).mem = s.mem := rfl
@[simp] theorem State.writeI_v (a : Word) : (s.writeI a).v = s.v := rfl
@[simp] theorem State.writeI_i (a : Word) : (s.writeI a).i = a := rfl
@[simp] theorem State.writeI_pc (a : Word) : (s.writeI a).pc = s.pc := rfl
@[simp] theorem State.writeI_sp (a : Word) : (s.writeI a).sp = s.sp := rfl
@[simp] theorem State.writeI_stack (a : Word) : (s.writeI a).stack = s.stack := rfl
@[simp] theorem State.writeI_disp (a : Word) : (s.writeI a).disp = s.disp := rfl
@[simp] theorem State.writeI_key (a : Word) : (s.writeI a).key = s.key := rfl
@[simp] theorem State.writeI_dt (a : Word) : (s.writeI a).dt = s.dt := rfl
@[simp] theorem State.writeI_st (a : Word) : (s.writeI a).st = s.st := rfl
@[simp] theorem State.writeI_fault (a : Word) : (s.writeI a).fault = s.fault := rfl
@[simp] theorem State.writeI_draws (a : Word) : (s.writeI a).draws = s.draws := rfl

/-! #### writePC -/

@[simp] theorem State.writePC_mem (a : Word) : (s.writePC a).mem = s.mem := rfl
@[simp] theorem State.writePC_v (a : Word) : (s.writePC a).v = s.v := rfl
@[simp] theorem State.writePC_i (a : Word) : (s.writePC a).i = s.i := rfl
@[simp] theorem State.writePC_pc (a : Word) : (s.writePC a).pc = a := rfl
@[simp] theorem State.writePC_sp (a : Word) : (s.writePC a).sp = s.sp := rfl
@[simp] theorem State.writePC_stack (a : Word) : (s.writePC a).stack = s.stack := rfl
@[simp] theorem State.writePC_disp (a : Word) : (s.writePC a).disp = s.disp := rfl
@[simp] theorem State.writePC_key (a : Word) : (s.writePC a).key = s.key := rfl
@[simp] theorem State.writePC_dt (a : Word) : (s.writePC a).dt = s.dt := rfl
@[simp] theorem State.writePC_st (a : Word) : (s.writePC a).st = s.st := rfl
@[simp] theorem State.writePC_fault (a : Word) : (s.writePC a).fault = s.fault := rfl
@[simp] theorem State.writePC_draws (a : Word) : (s.writePC a).draws = s.draws := rfl

/-! #### writeDT -/

@[simp] theorem State.writeDT_mem (b : Byte) : (s.writeDT b).mem = s.mem := rfl
@[simp] theorem State.writeDT_v (b : Byte) : (s.writeDT b).v = s.v := rfl
@[simp] theorem State.writeDT_i (b : Byte) : (s.writeDT b).i = s.i := rfl
@[simp] theorem State.writeDT_pc (b : Byte) : (s.writeDT b).pc = s.pc := rfl
@[simp] theorem State.writeDT_sp (b : Byte) : (s.writeDT b).sp = s.sp := rfl
@[simp] theorem State.writeDT_stack (b : Byte) : (s.writeDT b).stack = s.stack := rfl
@[simp] theorem State.writeDT_disp (b : Byte) : (s.writeDT b).disp = s.disp := rfl
@[simp] theorem State.writeDT_key (b : Byte) : (s.writeDT b).key = s.key := rfl
@[simp] theorem State.writeDT_dt (b : Byte) : (s.writeDT b).dt = b := rfl
@[simp] theorem State.writeDT_st (b : Byte) : (s.writeDT b).st = s.st := rfl
@[simp] theorem State.writeDT_fault (b : Byte) : (s.writeDT b).fault = s.fault := rfl
@[simp] theorem State.writeDT_draws (b : Byte) : (s.writeDT b).draws = s.draws := rfl

/-! #### writeST -/

@[simp] theorem State.writeST_mem (b : Byte) : (s.writeST b).mem = s.mem := rfl
@[simp] theorem State.writeST_v (b : Byte) : (s.writeST b).v = s.v := rfl
@[simp] theorem State.writeST_i (b : Byte) : (s.writeST b).i = s.i := rfl
@[simp] theorem State.writeST_pc (b : Byte) : (s.writeST b).pc = s.pc := rfl
@[simp] theorem State.writeST_sp (b : Byte) : (s.writeST b).sp = s.sp := rfl
@[simp] theorem State.writeST_stack (b : Byte) : (s.writeST b).stack = s.stack := rfl
@[simp] theorem State.writeST_disp (b : Byte) : (s.writeST b).disp = s.disp := rfl
@[simp] theorem State.writeST_key (b : Byte) : (s.writeST b).key = s.key := rfl
@[simp] theorem State.writeST_dt (b : Byte) : (s.writeST b).dt = s.dt := rfl
@[simp] theorem State.writeST_st (b : Byte) : (s.writeST b).st = b := rfl
@[simp] theorem State.writeST_fault (b : Byte) : (s.writeST b).fault = s.fault := rfl
@[simp] theorem State.writeST_draws (b : Byte) : (s.writeST b).draws = s.draws := rfl

/-! #### writeMem -/

@[simp] theorem State.writeMem_mem (m : Memory) : (s.writeMem m).mem = m := rfl
@[simp] theorem State.writeMem_v (m : Memory) : (s.writeMem m).v = s.v := rfl
@[simp] theorem State.writeMem_i (m : Memory) : (s.writeMem m).i = s.i := rfl
@[simp] theorem State.writeMem_pc (m : Memory) : (s.writeMem m).pc = s.pc := rfl
@[simp] theorem State.writeMem_sp (m : Memory) : (s.writeMem m).sp = s.sp := rfl
@[simp] theorem State.writeMem_stack (m : Memory) : (s.writeMem m).stack = s.stack := rfl
@[simp] theorem State.writeMem_disp (m : Memory) : (s.writeMem m).disp = s.disp := rfl
@[simp] theorem State.writeMem_key (m : Memory) : (s.writeMem m).key = s.key := rfl
@[simp] theorem State.writeMem_dt (m : Memory) : (s.writeMem m).dt = s.dt := rfl
@[simp] theorem State.writeMem_st (m : Memory) : (s.writeMem m).st = s.st := rfl
@[simp] theorem State.writeMem_fault (m : Memory) : (s.writeMem m).fault = s.fault := rfl
@[simp] theorem State.writeMem_draws (m : Memory) : (s.writeMem m).draws = s.draws := rfl

/-! #### writeDisp -/

@[simp] theorem State.writeDisp_mem (d : Display) : (s.writeDisp d).mem = s.mem := rfl
@[simp] theorem State.writeDisp_v (d : Display) : (s.writeDisp d).v = s.v := rfl
@[simp] theorem State.writeDisp_i (d : Display) : (s.writeDisp d).i = s.i := rfl
@[simp] theorem State.writeDisp_pc (d : Display) : (s.writeDisp d).pc = s.pc := rfl
@[simp] theorem State.writeDisp_sp (d : Display) : (s.writeDisp d).sp = s.sp := rfl
@[simp] theorem State.writeDisp_stack (d : Display) : (s.writeDisp d).stack = s.stack := rfl
@[simp] theorem State.writeDisp_disp (d : Display) : (s.writeDisp d).disp = d := rfl
@[simp] theorem State.writeDisp_key (d : Display) : (s.writeDisp d).key = s.key := rfl
@[simp] theorem State.writeDisp_dt (d : Display) : (s.writeDisp d).dt = s.dt := rfl
@[simp] theorem State.writeDisp_st (d : Display) : (s.writeDisp d).st = s.st := rfl
@[simp] theorem State.writeDisp_fault (d : Display) : (s.writeDisp d).fault = s.fault := rfl
@[simp] theorem State.writeDisp_draws (d : Display) : (s.writeDisp d).draws = s.draws := rfl

/-! #### writeKey -/

@[simp] theorem State.writeKey_mem (k : Fin 16) (p : Bool) : (s.writeKey k p).mem = s.mem := rfl
@[simp] theorem State.writeKey_v (k : Fin 16) (p : Bool) : (s.writeKey k p).v = s.v := rfl
@[simp] theorem State.writeKey_i (k : Fin 16) (p : Bool) : (s.writeKey k p).i = s.i := rfl
@[simp] theorem State.writeKey_pc (k : Fin 16) (p : Bool) : (s.writeKey k p).pc = s.pc := rfl
@[simp] theorem State.writeKey_sp (k : Fin 16) (p : Bool) : (s.writeKey k p).sp = s.sp := rfl
@[simp] theorem State.writeKey_stack (k : Fin 16) (p : Bool) : (s.writeKey k p).stack = s.stack := rfl
@[simp] theorem State.writeKey_disp (k : Fin 16) (p : Bool) : (s.writeKey k p).disp = s.disp := rfl
@[simp] theorem State.writeKey_key (k : Fin 16) (p : Bool) : (s.writeKey k p).key = s.key.set k p := rfl
@[simp] theorem State.writeKey_dt (k : Fin 16) (p : Bool) : (s.writeKey k p).dt = s.dt := rfl
@[simp] theorem State.writeKey_st (k : Fin 16) (p : Bool) : (s.writeKey k p).st = s.st := rfl
@[simp] theorem State.writeKey_fault (k : Fin 16) (p : Bool) : (s.writeKey k p).fault = s.fault := rfl
@[simp] theorem State.writeKey_draws (k : Fin 16) (p : Bool) : (s.writeKey k p).draws = s.draws := rfl

/-! #### nextDraw -/

@[simp] theorem State.nextDraw_mem : s.nextDraw.mem = s.mem := rfl
@[simp] theorem State.nextDraw_v : s.nextDraw.v = s.v := rfl
@[simp] theorem State.nextDraw_i : s.nextDraw.i = s.i := rfl
@[simp] theorem State.nextDraw_pc : s.nextDraw.pc = s.pc := rfl
@[simp] theorem State.nextDraw_sp : s.nextDraw.sp = s.sp := rfl
@[simp] theorem State.nextDraw_stack : s.nextDraw.stack = s.stack := rfl
@[simp] theorem State.nextDraw_disp : s.nextDraw.disp = s.disp := rfl
@[simp] theorem State.nextDraw_key : s.nextDraw.key = s.key := rfl
@[simp] theorem State.nextDraw_dt : s.nextDraw.dt = s.dt := rfl
@[simp] theorem State.nextDraw_st : s.nextDraw.st = s.st := rfl
@[simp] theorem State.nextDraw_fault : s.nextDraw.fault = s.fault := rfl
@[simp] theorem State.nextDraw_draws : s.nextDraw.draws = s.draws + 1 := rfl

/-! #### enterFault -/

@[simp] theorem State.enterFault_mem (k : Fault) (a : Word) (w : Option Word) : (s.enterFault k a w).mem = s.mem := rfl
@[simp] theorem State.enterFault_v (k : Fault) (a : Word) (w : Option Word) : (s.enterFault k a w).v = s.v := rfl
@[simp] theorem State.enterFault_i (k : Fault) (a : Word) (w : Option Word) : (s.enterFault k a w).i = s.i := rfl
@[simp] theorem State.enterFault_pc (k : Fault) (a : Word) (w : Option Word) : (s.enterFault k a w).pc = s.pc := rfl
@[simp] theorem State.enterFault_sp (k : Fault) (a : Word) (w : Option Word) : (s.enterFault k a w).sp = s.sp := rfl
@[simp] theorem State.enterFault_stack (k : Fault) (a : Word) (w : Option Word) : (s.enterFault k a w).stack = s.stack := rfl
@[simp] theorem State.enterFault_disp (k : Fault) (a : Word) (w : Option Word) : (s.enterFault k a w).disp = s.disp := rfl
@[simp] theorem State.enterFault_key (k : Fault) (a : Word) (w : Option Word) : (s.enterFault k a w).key = s.key := rfl
@[simp] theorem State.enterFault_dt (k : Fault) (a : Word) (w : Option Word) : (s.enterFault k a w).dt = s.dt := rfl
@[simp] theorem State.enterFault_st (k : Fault) (a : Word) (w : Option Word) : (s.enterFault k a w).st = s.st := rfl
@[simp] theorem State.enterFault_fault (k : Fault) (a : Word) (w : Option Word) : (s.enterFault k a w).fault = some ⟨k, a, w⟩ := rfl
@[simp] theorem State.enterFault_draws (k : Fault) (a : Word) (w : Option Word) : (s.enterFault k a w).draws = s.draws := rfl

/-! #### raise -/

@[simp] theorem State.raise_mem (k : Fault) (ins : Instr) : (s.raise k ins).mem = s.mem := rfl
@[simp] theorem State.raise_v (k : Fault) (ins : Instr) : (s.raise k ins).v = s.v := rfl
@[simp] theorem State.raise_i (k : Fault) (ins : Instr) : (s.raise k ins).i = s.i := rfl
@[simp] theorem State.raise_pc (k : Fault) (ins : Instr) : (s.raise k ins).pc = s.pc - 2 := rfl
@[simp] theorem State.raise_sp (k : Fault) (ins : Instr) : (s.raise k ins).sp = s.sp := rfl
@[simp] theorem State.raise_stack (k : Fault) (ins : Instr) : (s.raise k ins).stack = s.stack := rfl
@[simp] theorem State.raise_disp (k : Fault) (ins : Instr) : (s.raise k ins).disp = s.disp := rfl
@[simp] theorem State.raise_key (k : Fault) (ins : Instr) : (s.raise k ins).key = s.key := rfl
@[simp] theorem State.raise_dt (k : Fault) (ins : Instr) : (s.raise k ins).dt = s.dt := rfl
@[simp] theorem State.raise_st (k : Fault) (ins : Instr) : (s.raise k ins).st = s.st := rfl
@[simp] theorem State.raise_fault (k : Fault) (ins : Instr) : (s.raise k ins).fault = some ⟨k, s.pc - 2, some (encode ins)⟩ := rfl
@[simp] theorem State.raise_draws (k : Fault) (ins : Instr) : (s.raise k ins).draws = s.draws := rfl

/-! #### countTimers -/

@[simp] theorem State.countTimers_mem : s.countTimers.mem = s.mem := rfl
@[simp] theorem State.countTimers_v : s.countTimers.v = s.v := rfl
@[simp] theorem State.countTimers_i : s.countTimers.i = s.i := rfl
@[simp] theorem State.countTimers_pc : s.countTimers.pc = s.pc := rfl
@[simp] theorem State.countTimers_sp : s.countTimers.sp = s.sp := rfl
@[simp] theorem State.countTimers_stack : s.countTimers.stack = s.stack := rfl
@[simp] theorem State.countTimers_disp : s.countTimers.disp = s.disp := rfl
@[simp] theorem State.countTimers_key : s.countTimers.key = s.key := rfl
@[simp] theorem State.countTimers_dt : s.countTimers.dt = countDown s.dt := rfl
@[simp] theorem State.countTimers_st : s.countTimers.st = countDown s.st := rfl
@[simp] theorem State.countTimers_fault : s.countTimers.fault = s.fault := rfl
@[simp] theorem State.countTimers_draws : s.countTimers.draws = s.draws := rfl

/-! #### writeResultFlag: only V changes, in either order -/

@[simp] theorem State.writeResultFlag_mem (o : Config.FlagOrder) (x : Reg) (r g : Byte) :
    (s.writeResultFlag o x r g).mem = s.mem := by cases o <;> rfl
@[simp] theorem State.writeResultFlag_i (o : Config.FlagOrder) (x : Reg) (r g : Byte) :
    (s.writeResultFlag o x r g).i = s.i := by cases o <;> rfl
@[simp] theorem State.writeResultFlag_pc (o : Config.FlagOrder) (x : Reg) (r g : Byte) :
    (s.writeResultFlag o x r g).pc = s.pc := by cases o <;> rfl
@[simp] theorem State.writeResultFlag_sp (o : Config.FlagOrder) (x : Reg) (r g : Byte) :
    (s.writeResultFlag o x r g).sp = s.sp := by cases o <;> rfl
@[simp] theorem State.writeResultFlag_stack (o : Config.FlagOrder) (x : Reg) (r g : Byte) :
    (s.writeResultFlag o x r g).stack = s.stack := by cases o <;> rfl
@[simp] theorem State.writeResultFlag_disp (o : Config.FlagOrder) (x : Reg) (r g : Byte) :
    (s.writeResultFlag o x r g).disp = s.disp := by cases o <;> rfl
@[simp] theorem State.writeResultFlag_key (o : Config.FlagOrder) (x : Reg) (r g : Byte) :
    (s.writeResultFlag o x r g).key = s.key := by cases o <;> rfl
@[simp] theorem State.writeResultFlag_dt (o : Config.FlagOrder) (x : Reg) (r g : Byte) :
    (s.writeResultFlag o x r g).dt = s.dt := by cases o <;> rfl
@[simp] theorem State.writeResultFlag_st (o : Config.FlagOrder) (x : Reg) (r g : Byte) :
    (s.writeResultFlag o x r g).st = s.st := by cases o <;> rfl
@[simp] theorem State.writeResultFlag_fault (o : Config.FlagOrder) (x : Reg) (r g : Byte) :
    (s.writeResultFlag o x r g).fault = s.fault := by cases o <;> rfl
@[simp] theorem State.writeResultFlag_draws (o : Config.FlagOrder) (x : Reg) (r g : Byte) :
    (s.writeResultFlag o x r g).draws = s.draws := by cases o <;> rfl

@[simp] theorem State.writeResultFlag_flagLast_v (x : Reg) (r g : Byte) :
    (s.writeResultFlag .flagLast x r g).v = (s.v.set x r).set VF g := rfl

@[simp] theorem State.writeResultFlag_resultLast_v (x : Reg) (r g : Byte) :
    (s.writeResultFlag .resultLast x r g).v = (s.v.set VF g).set x r := rfl

/-! #### skipIf: only PC can change -/

@[simp] theorem State.skipIf_mem (c : Bool) : (s.skipIf c).mem = s.mem := by cases c <;> rfl
@[simp] theorem State.skipIf_v (c : Bool) : (s.skipIf c).v = s.v := by cases c <;> rfl
@[simp] theorem State.skipIf_i (c : Bool) : (s.skipIf c).i = s.i := by cases c <;> rfl
@[simp] theorem State.skipIf_sp (c : Bool) : (s.skipIf c).sp = s.sp := by cases c <;> rfl
@[simp] theorem State.skipIf_stack (c : Bool) : (s.skipIf c).stack = s.stack := by cases c <;> rfl
@[simp] theorem State.skipIf_disp (c : Bool) : (s.skipIf c).disp = s.disp := by cases c <;> rfl
@[simp] theorem State.skipIf_key (c : Bool) : (s.skipIf c).key = s.key := by cases c <;> rfl
@[simp] theorem State.skipIf_dt (c : Bool) : (s.skipIf c).dt = s.dt := by cases c <;> rfl
@[simp] theorem State.skipIf_st (c : Bool) : (s.skipIf c).st = s.st := by cases c <;> rfl
@[simp] theorem State.skipIf_fault (c : Bool) : (s.skipIf c).fault = s.fault := by cases c <;> rfl
@[simp] theorem State.skipIf_draws (c : Bool) : (s.skipIf c).draws = s.draws := by cases c <;> rfl

theorem State.skipIf_pc (c : Bool) : (s.skipIf c).pc = if c then s.pc + 2 else s.pc := by cases c <;> rfl

/-- Reading a register after writing one. -/
theorem State.readV_writeV (x z : Reg) (b : Byte) : (s.writeV x b).readV z = if z = x then b else s.readV z := by
  unfold State.readV State.writeV
  by_cases h : z = x
  · subst h; simp
  · have : x.val ≠ z.val := fun e => h (Fin.ext e.symm)
    simp [h, this]

end Sys2Proof.Machine
end

