-- ==== Sys2Proof/Laws/Ops.lean ====
section
/-! SUPPORT. One lemma for each shared operation that says once everything it can do. -/

namespace Sys2Proof.Machine

/-! ### Registers and flags -/

/-- Registers after putting bytes into k, k+1, …: those get the bytes, every other is as before. -/
theorem setRegsFrom_get (v : Vector Byte 16) (k : Nat) (bs : List Byte) (j : Fin 16) :
    (setRegsFrom v k bs)[j] = if k ≤ j.val ∧ j.val < k + bs.length then bs.getD (j.val - k) 0 else v[j] := by
  induction bs generalizing v k with
  | nil => rw [if_neg (by simp)]; rfl
  | cons b bs ih =>
    rw [setRegsFrom, ih]
    simp only [List.length_cons]
    by_cases hj : j.val = k
    · rw [if_neg (by omega), if_pos (by omega), ← hj]; simp
    · have hj' : ¬ k = j.val := fun e => hj e.symm
      by_cases hq : k + 1 ≤ j.val ∧ j.val < k + 1 + bs.length
      · rw [if_pos hq, if_pos (by omega), show j.val - k = (j.val - (k + 1)) + 1 by omega]; rfl
      · rw [if_neg hq, if_neg (by omega)]; simp [hj']

@[simp] theorem flagByte_true : flagByte true = 1 := rfl

@[simp] theorem flagByte_false : flagByte false = 0 := rfl

/-- Where the destination is not VF, the two orders of writing agree. -/
theorem writeResultFlag_order_irrelevant (s : State) (x : Reg) (r g : Byte) (hx : x ≠ VF) :
    s.writeResultFlag .flagLast x r g = s.writeResultFlag .resultLast x r g := by
  apply State.ext <;> try rfl
  have : x.val ≠ (VF : Reg).val := fun e => hx (Fin.ext e)
  simp only [State.writeResultFlag_flagLast_v, State.writeResultFlag_resultLast_v]
  exact Vector.set_comm r g this

/-! ### The stack -/

/-- What a push answers (R101). -/
theorem State.push_cases (s : State) (a : Word) :
    (∃ h : s.sp.toNat < 16, s.push a = some { s with stack := s.stack.set s.sp.toNat a h, sp := s.sp + 1 }) ∨
      (16 ≤ s.sp.toNat ∧ s.push a = none) := by
  unfold State.push
  by_cases h : s.sp.toNat < Config.stackDepth
  · exact .inl ⟨h, dif_pos h⟩
  · exact .inr ⟨Nat.le_of_not_lt h, dif_neg h⟩

/-- What a pop answers (R102). -/
theorem State.pop_cases (s : State) :
    (∃ h : (s.sp - 1).toNat < 16, s.sp ≠ 0 ∧ s.pop = some (s.stack[(s.sp - 1).toNat], { s with sp := s.sp - 1 })) ∨
      ((s.sp = 0 ∨ 16 < s.sp.toNat) ∧ s.pop = none) := by
  unfold State.pop
  by_cases h0 : s.sp = 0
  · exact .inr ⟨.inl h0, if_pos h0⟩
  · rw [if_neg h0]
    by_cases h : (s.sp - 1).toNat < 16
    · exact .inl ⟨h, h0, by rw [Vector.getElem?_eq_getElem h]; rfl⟩
    · refine .inr ⟨.inr ?_, by rw [Vector.getElem?_eq_none (by omega)]; rfl⟩
      bv_omega

/-! ### The display -/

@[ext] theorem Display.ext_get {d e : Display} (h : ∀ p, d.get p = e.get p) : d = e := by
  obtain ⟨l, hl⟩ := d
  obtain ⟨k, hk⟩ := e
  congr
  apply List.ext_getElem (by rw [hl, hk])
  intro n h1 h2
  exact h ⟨n, by rw [← hl]; exact h1⟩

theorem Display.get_set (d : Display) (p q : Fin Config.dispSize) (b : Bool) :
    (d.set p b).get q = if q = p then b else d.get q := by
  unfold Display.get Display.set
  by_cases h : q = p
  · subst h; simp
  · have : p.val ≠ q.val := fun e => h (Fin.ext e.symm)
    simp [h, this]

@[simp] theorem Display.get_blank (p : Fin Config.dispSize) : Display.blank.get p = false := by
  simp [Display.get, Display.blank]

/-- What XORing one pixel does: that pixel is inverted, every other is as before, and a lit one collides. -/
theorem Draw.toggle_get (a : Draw) (p q : Fin Config.dispSize) :
    (a.toggle p).disp.get q = if q = p then !a.disp.get p else a.disp.get q := Display.get_set ..

@[simp] theorem Draw.toggle_collided (a : Draw) (p : Fin Config.dispSize) :
    (a.toggle p).collided = (a.collided || a.disp.get p) := rfl

theorem pixelIndex_val (x y : Nat) : (pixelIndex x y).val = x % 64 + 64 * (y % 32) := rfl

/-- Two pixel indices are equal only for the same wrapped coordinates. -/
theorem pixelIndex_eq_iff (x y x' y' : Nat) :
    pixelIndex x y = pixelIndex x' y' ↔ x % 64 = x' % 64 ∧ y % 32 = y' % 32 := by
  rw [Fin.ext_iff, pixelIndex_val, pixelIndex_val]; omega

/-! ### Keys and timers -/

theorem State.keyAt_eq (s : State) (k : Byte) :
    s.keyAt k = if h : k.toNat < 16 then some s.key[k.toNat] else none := by
  unfold State.keyAt
  split
  · exact Vector.getElem?_eq_getElem _
  · exact Vector.getElem?_eq_none (by omega)

/-- What the scan for a pressed key answers: the lowest pressed one, or that none is pressed (R152). -/
theorem State.lowestKey_cases (s : State) :
    (∃ k : Fin 16, s.lowestKey = some k.val ∧ s.key[k] = true ∧ ∀ j : Fin 16, j < k → s.key[j] = false) ∨
      (s.lowestKey = none ∧ ∀ j : Fin 16, s.key[j] = false) := by
  unfold State.lowestKey
  cases h : s.key.toList.findIdx? (· == true) with
  | none =>
    refine .inr ⟨rfl, fun j => ?_⟩
    rw [List.findIdx?_eq_none_iff] at h
    have := h s.key[j] (by simp)
    simpa using this
  | some k =>
    rw [List.findIdx?_eq_some_iff_getElem] at h
    obtain ⟨hk, hp, hlow⟩ := h
    rw [Vector.length_toList] at hk
    refine .inl ⟨⟨k, hk⟩, rfl, by simpa using hp, fun j hj => ?_⟩
    have := hlow j.val hj
    simpa using this

theorem countDown_toNat (b : Byte) : (countDown b).toNat = b.toNat - 1 := by
  unfold countDown
  split
  · subst b; rfl
  · bv_omega

/-! ### Operand forms over memory -/

theorem State.regsUpTo_length (s : State) (x : Reg) : (s.regsUpTo x).length = x.val + 1 := by
  simp [State.regsUpTo, State.firstRegs]

/-- The k-th of the registers V0..Vx is Vk. -/
theorem State.regsUpTo_get (s : State) (x k : Reg) (hk : k ≤ x) : (s.regsUpTo x).getD k.val 0 = s.v[k] := by
  have hk' : k.val ≤ x.val := hk
  rw [List.getD_eq_getElem?_getD, List.getElem?_eq_getElem (by rw [State.regsUpTo_length]; omega)]
  simp [State.regsUpTo, State.firstRegs]

/-- What the sprite read answers (R144, R145). -/
theorem State.spriteBytes_eq (s : State) (n : RowCount) :
    s.spriteBytes n = if n.val = 0 ∨ s.i.toNat + n.val ≤ 4096
      then some ((List.range n.val).map fun k => Memory.byteAt s.mem (s.i.toNat + k)) else none :=
  Memory.readBytes_eq

/-- What the register load reads (R158). -/
theorem State.regBytesAtI_eq (s : State) (x : Reg) :
    s.regBytesAtI x = if s.i.toNat + x.val ≤ 4095
      then some ((List.range (x.val + 1)).map fun k => Memory.byteAt s.mem (s.i.toNat + k)) else none := by
  rw [State.regBytesAtI, Memory.readBytes_eq, State.memBase]
  congr 1
  simp only [eq_iff_iff]
  omega

/-- What a store of one or more bytes at I answers (R156, R157). -/
theorem State.storeAtI_eq (s : State) (bs : List Byte) (h : 0 < bs.length) :
    s.storeAtI bs = if s.i.toNat + bs.length ≤ 4096 then some (Memory.fill s.mem s.i.toNat bs) else none := by
  have hne : bs ≠ [] := by rintro rfl; simp at h
  rw [State.storeAtI, Memory.writeBytes_eq, State.memBase]
  simp [hne]

/-! ### Fetch -/

/-- Everything the fetch and decode phases can come to (R90, R92). -/
theorem State.fetch_cases (s : State) :
    (s.fault ≠ none ∧ s.fetch = .ends s) ∨
    (s.fault = none ∧ Memory.readWord s.mem s.pc.toNat = none ∧
      s.fetch = .ends (s.enterFault .fetchBounds s.pc none)) ∨
    (∃ w, s.fault = none ∧ Memory.readWord s.mem s.pc.toNat = some w ∧ decode w = none ∧
      s.fetch = .ends (s.enterFault .decodeFault s.pc (some w))) ∨
    (∃ w ins, s.fault = none ∧ Memory.readWord s.mem s.pc.toNat = some w ∧ decode w = some ins ∧
      s.fetch = .runs ins (s.writePC (s.pc + 2))) := by
  unfold State.fetch
  cases hf : s.fault with
  | some r => exact .inl ⟨by simp, rfl⟩
  | none =>
    refine .inr ?_
    cases hw : Memory.readWord s.mem s.pc.toNat with
    | none => exact .inl ⟨rfl, rfl, rfl⟩
    | some w =>
      refine .inr ?_
      cases hd : decode w with
      | none => exact .inl ⟨w, rfl, rfl, hd, by simp [hd]⟩
      | some ins => exact .inr ⟨w, ins, rfl, rfl, hd, by simp [hd]⟩

/-- Raising a fault after a fetch undoes the fetch: only FAULT differs from the state before the step (R91). -/
theorem State.raise_after_fetch (s : State) (k : Fault) (ins : Instr) :
    (s.writePC (s.pc + 2)).raise k ins = s.enterFault k s.pc (some (encode ins)) := by
  apply State.ext <;> simp

end Sys2Proof.Machine
end

