-- ==== Sys2Proof/Laws/Draw.lean ====
section
/-! SUPPORT. What drawing does to the display and to the collision flag (R143 to R145): a set of covered pixels is
inverted, each of them once, and a lit covered pixel collides. -/

namespace Sys2Proof.Machine

/-- Drawing from `a` to `a'` inverted exactly the pixels of `hit` and recorded a collision iff one of them was lit. -/
def Draw.Inverted (hit : Fin Config.dispSize → Prop) (a a' : Draw) : Prop :=
  (∀ p, a'.disp.get p = true ↔ ¬ (a.disp.get p = true ↔ hit p)) ∧
    (a'.collided = true ↔ a.collided = true ∨ ∃ p, a.disp.get p = true ∧ hit p)

/-- Two draws one after the other, of sets with no pixel in common, are one draw of both. -/
theorem Draw.Inverted.then {hit hit' both : Fin Config.dispSize → Prop} {a b c : Draw} (h : Draw.Inverted hit a b)
    (h' : Draw.Inverted hit' b c) (hd : ∀ p, hit p → ¬ hit' p) (hb : ∀ p, both p ↔ hit p ∨ hit' p) :
    Draw.Inverted both a c := by
  constructor
  · intro p
    have := hd p
    rw [h'.1, h.1, hb]; tauto
  · rw [h'.2, h.2]
    constructor
    · rintro ((hc | ⟨p, hp, hh⟩) | ⟨p, hp, hh⟩)
      · exact .inl hc
      · exact .inr ⟨p, hp, (hb p).2 (.inl hh)⟩
      · have := hd p
        rw [h.1] at hp
        exact .inr ⟨p, by tauto, (hb p).2 (.inr hh)⟩
    · rintro (hc | ⟨p, hp, hh⟩)
      · exact .inl (.inl hc)
      · rcases (hb p).1 hh with hh | hh
        · exact .inl (.inr ⟨p, hp, hh⟩)
        · have := hd p
          exact .inr ⟨p, by rw [h.1]; tauto, hh⟩

theorem Draw.toggle_inverted (a : Draw) (q : Fin Config.dispSize) : Draw.Inverted (· = q) a (a.toggle q) := by
  constructor
  · intro p
    rw [Draw.toggle_get]
    split
    · subst p; simp
    · simp [*]
  · simp

/-- A row of the sprite at (cx, cy) covers the pixel. -/
def rowCovers (cx cy row : Nat) (b : Byte) (cols : List Nat) (p : Fin Config.dispSize) : Prop :=
  ∃ col ∈ cols, spriteBit b col = true ∧ p = pixelIndex (cx + col) (cy + row)

theorem Draw.columns_inverted (cx cy row : Nat) (b : Byte) (cols : List Nat) (a : Draw) (h8 : ∀ c ∈ cols, c < 8)
    (hn : cols.Nodup) :
    Draw.Inverted (rowCovers cx cy row b cols) a
      (cols.foldl (fun a col => if spriteBit b col then a.toggle (pixelIndex (cx + col) (cy + row)) else a) a) := by
  induction cols generalizing a with
  | nil => simp [Draw.Inverted, rowCovers]
  | cons c cs ih =>
    rw [List.nodup_cons] at hn
    have hc := h8 c List.mem_cons_self
    have ih' := fun a => ih a (fun c' h => h8 c' (List.mem_cons_of_mem _ h)) hn.2
    rw [List.foldl_cons]
    by_cases hb : spriteBit b c = true
    · rw [if_pos hb]
      refine (Draw.toggle_inverted a _).then (ih' _) ?_ ?_
      · rintro p rfl ⟨c', hc', -, he⟩
        rw [pixelIndex_eq_iff] at he
        have := h8 c' (List.mem_cons_of_mem _ hc')
        have : c' ≠ c := fun e => hn.1 (e ▸ hc')
        omega
      · intro p; simp [rowCovers, hb]
    · rw [if_neg hb]
      have e : rowCovers cx cy row b (c :: cs) = rowCovers cx cy row b cs := by
        funext p; simp [rowCovers, hb]
      rw [e]; exact ih' a

/-- One sprite row inverts the pixels its set bits fall on. -/
theorem Draw.spriteRow_inverted (cx cy row : Nat) (b : Byte) (a : Draw) :
    Draw.Inverted (rowCovers cx cy row b [0, 1, 2, 3, 4, 5, 6, 7]) a (a.spriteRow cx cy row b) :=
  Draw.columns_inverted cx cy row b _ a (by decide) (by decide)

/-- The rows of a sprite, the first being row `row`, cover the pixel. -/
def rowsCover (cx cy row : Nat) (bs : List Byte) (p : Fin Config.dispSize) : Prop :=
  ∃ k b, bs[k]? = some b ∧ rowCovers cx cy (row + k) b [0, 1, 2, 3, 4, 5, 6, 7] p

/-- A whole sprite of at most 32 rows inverts the pixels its set bits fall on, no pixel twice. -/
theorem Draw.spriteRows_inverted (cx cy row : Nat) (bs : List Byte) (a : Draw) (h : row + bs.length ≤ 32) :
    Draw.Inverted (rowsCover cx cy row bs) a (Draw.spriteRows cx cy row bs a) := by
  induction bs generalizing row a with
  | nil => simp [Draw.Inverted, rowsCover, Draw.spriteRows]
  | cons b bs ih =>
    simp only [List.length_cons] at h
    refine (Draw.spriteRow_inverted cx cy row b a).then (ih (row + 1) _ (by omega)) ?_ ?_
    · rintro p ⟨c, -, -, rfl⟩ ⟨k, b', hk, c', -, -, he⟩
      have := (List.getElem?_eq_some_iff.1 hk).1
      rw [pixelIndex_eq_iff] at he
      omega
    · intro p
      constructor
      · rintro ⟨_ | k, b', hk, hc⟩
        · simp only [List.getElem?_cons_zero, Option.some.injEq] at hk
          exact .inl (hk ▸ hc)
        · exact .inr ⟨k, b', by simpa using hk, by simpa [Nat.add_assoc, Nat.add_comm 1] using hc⟩
      · rintro (hc | ⟨k, b', hk, hc⟩)
        · exact ⟨0, b, by simp, hc⟩
        · exact ⟨k + 1, b', by simpa using hk, by simpa [Nat.add_assoc, Nat.add_comm 1] using hc⟩

end Sys2Proof.Machine
end

