-- ==== Sys2Proof/Laws/Exec.lean ====
section
/-! SUPPORT. What an instruction and a step can do, said once. -/

namespace Sys2Proof.Machine

/-- What an instruction that does not fault does to the state it executes in. -/
def Executed (i : Instr) (s t : State) : Prop :=
  match i with
  | .cls => t = s.writeDisp Display.blank
  | .ret => ∃ h : (s.sp - 1).toNat < 16, s.sp ≠ 0 ∧ t = { s with sp := s.sp - 1, pc := s.stack[(s.sp - 1).toNat] }
  | .jp nnn => t = s.writePC (immAddr nnn)
  | .call nnn => ∃ h : s.sp.toNat < 16,
      t = { s with stack := s.stack.set s.sp.toNat s.pc h, sp := s.sp + 1, pc := immAddr nnn }
  | .seImm x nn => t = s.skipIf (s.readV x == nn)
  | .sneImm x nn => t = s.skipIf (s.readV x != nn)
  | .seReg x y => t = s.skipIf (s.readV x == s.readV y)
  | .sneReg x y => t = s.skipIf (s.readV x != s.readV y)
  | .skp x => ∃ k : Fin 16, (s.readV x).toNat = k.val ∧ t = s.skipIf (s.key[k] == true)
  | .sknp x => ∃ k : Fin 16, (s.readV x).toNat = k.val ∧ t = s.skipIf (s.key[k] == false)
  | .ldImm x nn => t = s.writeV x nn
  | .addImm x nn => t = s.writeV x (sum8 (s.readV x) nn)
  | .ldReg x y => t = s.writeV x (s.readV y)
  | .orReg x y => t = s.writeV x (s.readV x ||| s.readV y)
  | .andReg x y => t = s.writeV x (s.readV x &&& s.readV y)
  | .xorReg x y => t = s.writeV x (s.readV x ^^^ s.readV y)
  | .addReg x y => t = (s.writeV x (sum8 (s.readV x) (s.readV y))).writeV VF (carryFlag (s.readV x) (s.readV y))
  | .sub x y => t = (s.writeV x (diff8 (s.readV x) (s.readV y))).writeV VF (noBorrowFlag (s.readV x) (s.readV y))
  | .subn x y => t = (s.writeV x (diff8 (s.readV y) (s.readV x))).writeV VF (noBorrowFlag (s.readV y) (s.readV x))
  | .shr x _ => t = (s.writeV x (shr8 (s.readV x))).writeV VF (shrFlag (s.readV x))
  | .shl x _ => t = (s.writeV x (shl8 (s.readV x))).writeV VF (shlFlag (s.readV x))
  | .ldI nnn => t = s.writeI (immAddr nnn)
  | .jpV0 nnn => t = s.writePC (immAddr nnn + byteToWord (s.readV V0))
  | .rnd x nn => t = (s.writeV x (s.randomDraw &&& nn)).nextDraw
  | .drw x y n => ∃ rows, s.spriteBytes n = some rows ∧ ∃ a : Draw,
      a = Draw.spriteRows (s.readV x).toNat (s.readV y).toNat 0 rows ⟨s.disp, false⟩ ∧
        t = (s.writeDisp a.disp).writeV VF (flagByte a.collided)
  | .ldVxDt x => t = s.writeV x s.dt
  | .ldVxK x =>
      (∃ k : Fin 16, s.key[k] = true ∧ (∀ j : Fin 16, j < k → s.key[j] = false) ∧
        t = s.writeV x (BitVec.ofNat 8 k.val)) ∨
      ((∀ j : Fin 16, s.key[j] = false) ∧ t = s.writePC (s.pc - 2))
  | .ldDtVx x => t = s.writeDT (s.readV x)
  | .ldStVx x => t = s.writeST (s.readV x)
  | .addIVx x => t = s.writeI (s.i + byteToWord (s.readV x))
  | .ldFVx x => t = s.writeI (glyphAddr (s.readV x))
  | .ldBVx x => s.i.toNat + 2 ≤ 4095 ∧ t = s.writeMem (Memory.fill s.mem s.i.toNat (bcdDigits (s.readV x)))
  | .ldMemVx x => s.i.toNat + x.val ≤ 4095 ∧ t = s.writeMem (Memory.fill s.mem s.i.toNat (s.regsUpTo x))
  | .ldVxMem x => s.i.toNat + x.val ≤ 4095 ∧
      t = s.loadRegs ((List.range (x.val + 1)).map fun k => Memory.byteAt s.mem (s.i.toNat + k))

/-- The state in which a key skip faults. -/
theorem skipOnKey_cases (x : Reg) (pressed : Bool) (ins : Instr) (s t : State)
    (h : skipOnKey x pressed ins s = .next t) :
    (∃ k : Fin 16, (s.readV x).toNat = k.val ∧ t = s.skipIf (s.key[k] == pressed)) ∨
      (15 < (s.readV x).toNat ∧ t = s.raise .keyIndex ins) := by
  rw [skipOnKey, State.keyAt_eq] at h
  by_cases hk : (s.readV x).toNat < 16
  · rw [dif_pos hk] at h; cases h; exact .inl ⟨⟨_, hk⟩, rfl, rfl⟩
  · rw [dif_neg hk] at h; cases h; exact .inr ⟨by omega, rfl⟩

/-- An instruction that answers a next state has its effect, or takes the fault of its own check (R91, R92). -/
theorem exec_cases (i : Instr) (s t : State) (h : exec i s = .next t) :
    Executed i s t ∨ ∃ k, i.ownFault = some k ∧ t = s.raise k i := by
  cases i with
  | ret =>
    change execRet s = .next t at h
    rcases s.pop_cases with ⟨h1, h2, hp⟩ | ⟨-, hp⟩ <;> rw [execRet, hp] at h <;> cases h
    · exact .inl ⟨h1, h2, rfl⟩
    · exact .inr ⟨_, rfl, rfl⟩
  | call nnn =>
    change execCall nnn s = .next t at h
    rcases s.push_cases s.pc with ⟨h1, hp⟩ | ⟨-, hp⟩ <;> rw [execCall, hp] at h <;> cases h
    · exact .inl ⟨h1, rfl⟩
    · exact .inr ⟨_, rfl, rfl⟩
  | skp x => exact (skipOnKey_cases x true _ s t h).imp id fun h => ⟨_, rfl, h.2⟩
  | sknp x => exact (skipOnKey_cases x false _ s t h).imp id fun h => ⟨_, rfl, h.2⟩
  | drw x y n =>
    change execDrw x y n s = .next t at h
    unfold execDrw at h
    split at h <;> cases h
    · exact .inl ⟨_, ‹_›, _, rfl, rfl⟩
    · exact .inr ⟨_, rfl, rfl⟩
  | ldVxK x =>
    change execLdVxK x s = .next t at h
    rcases s.lowestKey_cases with ⟨k, hk, h1, h2⟩ | ⟨hk, h1⟩ <;> rw [execLdVxK, hk] at h <;> cases h
    · exact .inl (.inl ⟨k, h1, h2, rfl⟩)
    · exact .inl (.inr ⟨h1, rfl⟩)
  | ldBVx x =>
    change execLdBVx x s = .next t at h
    rw [execLdBVx, State.storeAtI_eq s _ (by simp [bcdDigits])] at h
    split at h
    next m hm =>
      cases h
      split at hm <;> cases hm
      rename_i hc
      exact .inl ⟨by simp [bcdDigits] at hc; omega, rfl⟩
    next => cases h; exact .inr ⟨_, rfl, rfl⟩
  | ldMemVx x =>
    change execLdMemVx x s = .next t at h
    rw [execLdMemVx, State.storeAtI_eq s _ (by rw [State.regsUpTo_length]; omega), State.regsUpTo_length] at h
    split at h
    next m hm =>
      cases h
      split at hm <;> cases hm
      exact .inl ⟨by omega, rfl⟩
    next => cases h; exact .inr ⟨_, rfl, rfl⟩
  | ldVxMem x =>
    change execLdVxMem x s = .next t at h
    rw [execLdVxMem, State.regBytesAtI_eq] at h
    split at h
    next bs hb =>
      cases h
      split at hb <;> cases hb
      exact .inl ⟨‹_›, rfl⟩
    next => cases h; exact .inr ⟨_, rfl, rfl⟩
  | _ => cases h; exact .inl rfl

/-- Everything a step can come to (R90): a faulted machine stays as it is, a fetch or decode fault is taken, or the
decoded instruction executes with PC past its word. -/
theorem step_cases (s t : State) (h : step s = .next t) :
    (s.fault ≠ none ∧ t = s) ∨
    (s.fault = none ∧ 4094 < s.pc.toNat ∧ t = s.enterFault .fetchBounds s.pc none) ∨
    (∃ w, s.fault = none ∧ Memory.readWord s.mem s.pc.toNat = some w ∧ decode w = none ∧
      t = s.enterFault .decodeFault s.pc (some w)) ∨
    (∃ w i, s.fault = none ∧ Memory.readWord s.mem s.pc.toNat = some w ∧ decode w = some i ∧
      exec i (s.writePC (s.pc + 2)) = .next t) := by
  unfold step at h
  rcases s.fetch_cases with ⟨hf, he⟩ | ⟨hf, hw, he⟩ | ⟨w, hf, hw, hd, he⟩ | ⟨w, i, hf, hw, hd, he⟩ <;> rw [he] at h
  · cases h; exact .inl ⟨hf, rfl⟩
  · cases h
    rw [Memory.readWord_eq] at hw
    refine .inr (.inl ⟨hf, ?_, rfl⟩)
    split at hw
    · cases hw
    · omega
  · cases h; exact .inr (.inr (.inl ⟨w, hf, hw, hd, rfl⟩))
  · exact .inr (.inr (.inr ⟨w, i, hf, hw, hd, h⟩))

end Sys2Proof.Machine
end

