-- ==== Sys2Proof/Laws/PerInstr.lean ====
section
/-! SUPPORT. Family RowEncoding: an instruction is well-formed, and its word selects the row of the opcode map (R80) that
its constructor stands for. -/

namespace Sys2Proof.Laws.RowEncoding

/-- The instruction stands for a row of the opcode map and its word selects that row (R80, R86). -/
def Statement (i : Instr) : Prop := i.wellFormed = true ∧ i.row.selects (encode i) = true

/-- A word under its row's mask is the row's pattern. -/
theorem statement_of_masked {i : Instr} (h : i.wellFormed = true) {w : Word} (hm : encode i &&& i.row.mask = w)
    (hw : w = i.row.pattern) : Statement i :=
  ⟨h, by rw [OpcodeRow.selects, hm, hw]; exact beq_self_eq_true _⟩

theorem cls : Statement .cls := statement_of_masked rfl rfl rfl

theorem ret : Statement .ret := statement_of_masked rfl rfl rfl

theorem jp (nnn : Imm12) : Statement (.jp nnn) :=
  statement_of_masked rfl (packNNN_and_F000 ..) rfl

theorem call (nnn : Imm12) : Statement (.call nnn) :=
  statement_of_masked rfl (packNNN_and_F000 ..) rfl

theorem seImm (x : Reg) (nn : Byte) : Statement (.seImm x nn) :=
  statement_of_masked rfl (packXNN_and_F000 ..) rfl

theorem sneImm (x : Reg) (nn : Byte) : Statement (.sneImm x nn) :=
  statement_of_masked rfl (packXNN_and_F000 ..) rfl

theorem seReg (x y : Reg) : Statement (.seReg x y) :=
  statement_of_masked rfl (packXYN_and_F00F ..) rfl

theorem ldImm (x : Reg) (nn : Byte) : Statement (.ldImm x nn) :=
  statement_of_masked rfl (packXNN_and_F000 ..) rfl

theorem addImm (x : Reg) (nn : Byte) : Statement (.addImm x nn) :=
  statement_of_masked rfl (packXNN_and_F000 ..) rfl

theorem ldReg (x y : Reg) : Statement (.ldReg x y) :=
  statement_of_masked rfl (packXYN_and_F00F ..) rfl

theorem orReg (x y : Reg) : Statement (.orReg x y) :=
  statement_of_masked rfl (packXYN_and_F00F ..) rfl

theorem andReg (x y : Reg) : Statement (.andReg x y) :=
  statement_of_masked rfl (packXYN_and_F00F ..) rfl

theorem xorReg (x y : Reg) : Statement (.xorReg x y) :=
  statement_of_masked rfl (packXYN_and_F00F ..) rfl

theorem addReg (x y : Reg) : Statement (.addReg x y) :=
  statement_of_masked rfl (packXYN_and_F00F ..) rfl

theorem sub (x y : Reg) : Statement (.sub x y) :=
  statement_of_masked rfl (packXYN_and_F00F ..) rfl

theorem shr (x y : Reg) : Statement (.shr x y) :=
  statement_of_masked rfl (packXYN_and_F00F ..) rfl

theorem subn (x y : Reg) : Statement (.subn x y) :=
  statement_of_masked rfl (packXYN_and_F00F ..) rfl

theorem shl (x y : Reg) : Statement (.shl x y) :=
  statement_of_masked rfl (packXYN_and_F00F ..) rfl

theorem sneReg (x y : Reg) : Statement (.sneReg x y) :=
  statement_of_masked rfl (packXYN_and_F00F ..) rfl

theorem ldI (nnn : Imm12) : Statement (.ldI nnn) :=
  statement_of_masked rfl (packNNN_and_F000 ..) rfl

theorem jpV0 (nnn : Imm12) : Statement (.jpV0 nnn) :=
  statement_of_masked rfl (packNNN_and_F000 ..) rfl

theorem rnd (x : Reg) (nn : Byte) : Statement (.rnd x nn) :=
  statement_of_masked rfl (packXNN_and_F000 ..) rfl

theorem drw (x y : Reg) (n : RowCount) : Statement (.drw x y n) :=
  statement_of_masked rfl (packXYN_and_F000 ..) rfl

theorem skp (x : Reg) : Statement (.skp x) :=
  statement_of_masked rfl (packXNN_and_F0FF ..) rfl

theorem sknp (x : Reg) : Statement (.sknp x) :=
  statement_of_masked rfl (packXNN_and_F0FF ..) rfl

theorem ldVxDt (x : Reg) : Statement (.ldVxDt x) :=
  statement_of_masked rfl (packXNN_and_F0FF ..) rfl

theorem ldVxK (x : Reg) : Statement (.ldVxK x) :=
  statement_of_masked rfl (packXNN_and_F0FF ..) rfl

theorem ldDtVx (x : Reg) : Statement (.ldDtVx x) :=
  statement_of_masked rfl (packXNN_and_F0FF ..) rfl

theorem ldStVx (x : Reg) : Statement (.ldStVx x) :=
  statement_of_masked rfl (packXNN_and_F0FF ..) rfl

theorem addIVx (x : Reg) : Statement (.addIVx x) :=
  statement_of_masked rfl (packXNN_and_F0FF ..) rfl

theorem ldFVx (x : Reg) : Statement (.ldFVx x) :=
  statement_of_masked rfl (packXNN_and_F0FF ..) rfl

theorem ldBVx (x : Reg) : Statement (.ldBVx x) :=
  statement_of_masked rfl (packXNN_and_F0FF ..) rfl

theorem ldMemVx (x : Reg) : Statement (.ldMemVx x) :=
  statement_of_masked rfl (packXNN_and_F0FF ..) rfl

theorem ldVxMem (x : Reg) : Statement (.ldVxMem x) :=
  statement_of_masked rfl (packXNN_and_F0FF ..) rfl

end Sys2Proof.Laws.RowEncoding
end

