-- ==== Sys2Proof/Tests/Slice0.lean ====
section
/-! SUPPORT. Tests and witnesses. Expected results are spec/95_test_vectors.md's: S1 to S10 of its section 1, or the row
of the section named in the docstring. Each test runs one step of the word, which the host has placed at 0x200. -/

namespace Sys2Proof.Tests

open Sys2Proof Sys2Proof.Machine

/-! ### Helpers -/

/-- The state an outcome answers, or the reset state. -/
def after : Result → State
  | .next t => t
  | _ => State.reset

/-- One step of the word from the state, the word placed at the fetch address. -/
def run (w : Nat) (s : State) : State := after (step (s.withFetchWord 16 w))

/-- The reset state with some registers set. -/
def regs (l : List (Reg × Byte)) : State := l.foldl (fun s p => s.writeV p.1 p.2) State.reset

/-- The state with some bytes of memory set. -/
def bytes (a : Nat) (bs : List Byte) (s : State) : State := s.writeMem (Memory.fill s.mem a bs)

/-- The bytes at a, a+1, …. -/
def peek (s : State) (a n : Nat) : Option (List Byte) := Memory.readBytes s.mem a n

/-- The state with one pixel lit. -/
def lit (x y : Nat) (s : State) : State := s.writeDisp (s.disp.set (pixelIndex x y) true)

/-- The state with some keys pressed. -/
def keys (l : List (Fin 16)) (s : State) : State := l.foldl (fun s k => s.writeKey k true) s

/-- The state after a transaction, with what was put out. -/
def perform (tr : Transaction) (s : State) : State × List Output :=
  match transact tr s with
  | .next r => r
  | _ => (State.reset, [])

/-- The reset state halted by a fault. -/
def halted : State := State.reset.enterFault .decodeFault 0x200 (some 0)

/-! ### Ill-formed words: each check of the opcode map refuses one (R81; 95_test_vectors.md 2.1) -/

theorem test_illformed_family0 : wordWellFormed 0x0123 = false ∧ decode 0x0123 = none := by decide

theorem test_illformed_family0_neighbours : wordWellFormed 0x00E1 = false ∧ wordWellFormed 0x00FF = false := by decide

theorem test_illformed_family5 : wordWellFormed 0x5121 = false ∧ decode 0x5121 = none := by decide

theorem test_illformed_family8 :
    wordWellFormed 0x8008 = false ∧ wordWellFormed 0x800F = false ∧ decode 0x8008 = none ∧ decode 0x800F = none := by
  decide

theorem test_illformed_family9 : wordWellFormed 0x9001 = false ∧ decode 0x9001 = none := by decide

theorem test_illformed_familyE :
    wordWellFormed 0xE000 = false ∧ wordWellFormed 0xE09F = false ∧ decode 0xE000 = none ∧ decode 0xE09F = none := by
  decide

theorem test_illformed_familyF :
    wordWellFormed 0xF000 = false ∧ wordWellFormed 0xF0FF = false ∧ wordWellFormed 0xFFFF = false ∧
      decode 0xF0FF = none := by
  decide

/-- The refused word raises DecodeFault in a step. -/
theorem test_illegal_word_faults :
    (run 0x8128 State.reset).fault = some ⟨.decodeFault, 0x200, some 0x8128⟩ ∧ (run 0x8128 State.reset).pc = 0x200 := by
  decide

/-! ### Decoding: a word of every constructor, written out bit by bit from the patterns of R80 -/

theorem test_decode_control :
    decode 0b0000_0000_1110_0000 = some .cls ∧ decode 0b0000_0000_1110_1110 = some .ret ∧
    decode 0b0001_0010_0011_0100 = some (.jp 0x234) ∧ decode 0b0010_0011_0000_0001 = some (.call 0x301) ∧
    decode 0b1011_0001_0010_0011 = some (.jpV0 0x123) := by
  decide

theorem test_decode_skip :
    decode 0b0011_0011_0000_0101 = some (.seImm 3 0x05) ∧ decode 0b0100_0011_0000_0101 = some (.sneImm 3 0x05) ∧
    decode 0b0101_0001_0010_0000 = some (.seReg 1 2) ∧ decode 0b1001_0001_0010_0000 = some (.sneReg 1 2) ∧
    decode 0b1110_0111_1001_1110 = some (.skp 7) ∧ decode 0b1110_0111_1010_0001 = some (.sknp 7) := by
  decide

theorem test_decode_immediate :
    decode 0b0110_1010_0100_0010 = some (.ldImm 10 0x42) ∧ decode 0b0111_0001_0000_0011 = some (.addImm 1 0x03) := by
  decide

theorem test_decode_alu :
    decode 0b1000_0001_0010_0000 = some (.ldReg 1 2) ∧ decode 0b1000_0001_0010_0001 = some (.orReg 1 2) ∧
    decode 0b1000_0001_0010_0010 = some (.andReg 1 2) ∧ decode 0b1000_0001_0010_0011 = some (.xorReg 1 2) ∧
    decode 0b1000_0001_0010_0100 = some (.addReg 1 2) ∧ decode 0b1000_0001_0010_0101 = some (.sub 1 2) ∧
    decode 0b1000_0001_0010_0110 = some (.shr 1 2) ∧ decode 0b1000_0001_0010_0111 = some (.subn 1 2) ∧
    decode 0b1000_0001_0010_1110 = some (.shl 1 2) := by
  decide

theorem test_decode_address :
    decode 0b1010_1111_0000_0001 = some (.ldI 0xF01) ∧ decode 0b1111_0010_0001_1110 = some (.addIVx 2) ∧
    decode 0b1111_0100_0010_1001 = some (.ldFVx 4) := by
  decide

theorem test_decode_random : decode 0b1100_0011_0000_1111 = some (.rnd 3 0x0F) := by decide

theorem test_decode_draw : decode 0b1101_0001_0010_0101 = some (.drw 1 2 5) := by decide

theorem test_decode_timer :
    decode 0b1111_0101_0000_0111 = some (.ldVxDt 5) ∧ decode 0b1111_0101_0001_0101 = some (.ldDtVx 5) ∧
    decode 0b1111_0101_0001_1000 = some (.ldStVx 5) := by
  decide

theorem test_decode_keywait : decode 0b1111_0011_0000_1010 = some (.ldVxK 3) := by decide

theorem test_decode_block :
    decode 0b1111_0001_0011_0011 = some (.ldBVx 1) ∧ decode 0b1111_0010_0101_0101 = some (.ldMemVx 2) ∧
    decode 0b1111_0001_0110_0101 = some (.ldVxMem 1) := by
  decide

/-- The host's way in: bit 0 of the number is bit 0 of the word, whose high byte comes first in memory (R53, S1). -/
theorem test_decodeTableWord : decodeTableWord 16 0x00E0 = some .cls ∧ decodeTableWord 16 0xD125 = some (.drw 1 2 5) := by
  decide

theorem test_decodeBytes : decodeBytes [0x63, 0x3E, 0x12] = some (.ldImm 3 0x3E, [0x12]) ∧ decodeBytes [0x63] = none := by
  decide

/-- Encoding, on the words of 95_test_vectors.md: y is carried by SHR (R82). -/
theorem test_encode : encode (.shr 1 15) = 0x81F6 ∧ encode (.drw 15 1 1) = 0xDF11 ∧ encode (.ldBVx 10) = 0xFA33 := by
  decide

/-! ### Fetch (2.1) -/

/-- S1: the word of bytes 00 E0 is 0x00E0 and PC advances by 2. -/
theorem test_S1_fetch : ((bytes 0x200 [0x00, 0xE0] State.reset).fetch =
    .runs .cls ((bytes 0x200 [0x00, 0xE0] State.reset).writePC 0x202)) := by
  rfl

theorem test_fetch_at_4094 :
    let s := after (step (bytes 0xFFE [0x60, 0x01] (State.reset.writePC 0xFFE)))
    s.readV 0 = 0x01 ∧ s.pc = 0x1000 ∧ (after (step s)).fault = some ⟨.fetchBounds, 0x1000, none⟩ := by
  decide

theorem test_fetch_at_4095 :
    let s := after (step (State.reset.writePC 0xFFF))
    s.fault = some ⟨.fetchBounds, 0x0FFF, none⟩ ∧ s.pc = 0xFFF := by
  decide

theorem test_fetch_odd_pc :
    let s := after (step (bytes 0x201 [0x61, 0x23] (State.reset.writePC 0x201)))
    s.readV 1 = 0x23 ∧ s.pc = 0x203 := by
  decide

/-! ### Control flow (2.2) -/

/-- S3 at the two end pixels, with VF left alone. -/
theorem test_cls :
    let s := run 0x00E0 (lit 0 0 (lit 63 31 (regs [(15, 0x33)])))
    s.disp.get 0 = false ∧ s.disp.get 2047 = false ∧ s.readV 15 = 0x33 := by
  decide +kernel

theorem test_ret :
    let s := run 0x00EE { State.reset with sp := 2, stack := State.reset.stack.set 1 0x0ABC }
    s.pc = 0xABC ∧ s.sp = 1 ∧ s.stack[1] = 0x0ABC := by
  decide

theorem test_ret_underflow :
    let s := run 0x00EE State.reset
    s.fault = some ⟨.stackUnderflow, 0x200, some 0x00EE⟩ ∧ s.sp = 0 ∧ s.pc = 0x200 := by
  decide

theorem test_jp : (run 0x1234 State.reset).pc = 0x234 ∧ (run 0x1FFF State.reset).pc = 0xFFF := by decide

theorem test_call :
    let s := run 0x2300 { State.reset with sp := 15 }
    s.stack[15] = 0x0202 ∧ s.sp = 16 ∧ s.pc = 0x300 := by
  decide

theorem test_call_overflow :
    let s := run 0x2300 { State.reset with sp := 16 }
    s.fault = some ⟨.stackOverflow, 0x200, some 0x2300⟩ ∧ s.sp = 16 ∧ s.pc = 0x200 := by
  decide

theorem test_jpV0 : (run 0xB123 (regs [(0, 0x02), (1, 0x09)])).pc = 0x125 := by decide

theorem test_jpV0_beyond_memory : (run 0xBFFF (regs [(0, 0xFF)])).pc = 0x10FE := by decide

/-! ### Skips (2.3) -/

/-- S10. -/
theorem test_seImm : (run 0x3305 (regs [(3, 5)])).pc = 0x204 ∧ (run 0x3305 (regs [(3, 6)])).pc = 0x202 := by
  decide

theorem test_sneImm : (run 0x4305 (regs [(3, 5)])).pc = 0x202 ∧ (run 0x4305 (regs [(3, 6)])).pc = 0x204 := by
  decide

theorem test_seReg : (run 0x5120 (regs [(1, 0x7F), (2, 0x7F)])).pc = 0x204 := by decide

theorem test_sneReg : (run 0x9120 (regs [(1, 1), (2, 2)])).pc = 0x204 ∧ (run 0x9110 (regs [(1, 1)])).pc = 0x202 := by
  decide

theorem test_skp :
    (run 0xE09E (keys [10] (regs [(0, 0xA)]))).pc = 0x204 ∧ (run 0xE09E (regs [(0, 0xA)])).pc = 0x202 := by
  decide

theorem test_skp_key_index :
    (run 0xE09E (regs [(0, 0x10)])).fault = some ⟨.keyIndex, 0x200, some 0xE09E⟩ := by
  decide

theorem test_sknp :
    (run 0xE0A1 (keys [15] (regs [(0, 0xF)]))).pc = 0x202 ∧ (run 0xE0A1 (regs [(0, 0xA)])).pc = 0x204 := by
  decide

theorem test_sknp_key_index :
    (run 0xE0A1 (regs [(0, 0xFF)])).fault = some ⟨.keyIndex, 0x200, some 0xE0A1⟩ := by
  decide

/-! ### Immediates (2.4) and register-register (2.5) -/

theorem test_ldImm : (run 0x6A42 State.reset).readV 10 = 0x42 := by decide

theorem test_addImm :
    let s := run 0x7103 (regs [(1, 0xFE), (15, 0x55)])
    s.readV 1 = 0x01 ∧ s.readV 15 = 0x55 := by
  decide

theorem test_ldReg : (run 0x8120 (regs [(2, 0x9C)])).readV 1 = 0x9C := by decide

theorem test_orReg :
    let s := run 0x8121 (regs [(1, 0xF0), (2, 0x0F), (15, 0x01)])
    s.readV 1 = 0xFF ∧ s.readV 15 = 0x01 := by
  decide

theorem test_andReg : (run 0x8122 (regs [(1, 0xF0), (2, 0x3C)])).readV 1 = 0x30 := by decide

theorem test_xorReg : (run 0x8123 (regs [(1, 0xF0), (2, 0x3C)])).readV 1 = 0xCC := by decide

/-- S6. -/
theorem test_S6_addReg :
    let s := run 0x8124 (regs [(1, 0xFF), (2, 0x01)])
    s.readV 1 = 0x00 ∧ s.readV 15 = 1 := by
  decide

/-- x = F, the flag wins; y = F, the old VF is read first. -/
theorem test_addReg_with_VF :
    (run 0x8F14 (regs [(15, 0xFF), (1, 0x01)])).readV 15 = 1 ∧
    (run 0x81F4 (regs [(1, 0x10), (15, 0x01)])).readV 1 = 0x11 := by
  decide

/-- S7. -/
theorem test_S7_sub :
    let s := run 0x8125 (regs [(1, 0x01), (2, 0x02)])
    s.readV 1 = 0xFF ∧ s.readV 15 = 0 := by
  decide

theorem test_sub_equal :
    let s := run 0x8125 (regs [(1, 0x05), (2, 0x05)])
    s.readV 1 = 0x00 ∧ s.readV 15 = 1 := by
  decide

theorem test_shr :
    let s := run 0x8126 (regs [(1, 0x04), (2, 0xFF)])
    s.readV 1 = 0x02 ∧ s.readV 15 = 0 ∧ s.readV 2 = 0xFF := by
  decide

theorem test_shr_top_bit :
    let s := run 0x8106 (regs [(1, 0xFF)])
    s.readV 1 = 0x7F ∧ s.readV 15 = 1 := by
  decide

theorem test_subn :
    let s := run 0x8127 (regs [(1, 0x02), (2, 0x01)])
    s.readV 1 = 0xFF ∧ s.readV 15 = 0 := by
  decide

theorem test_subn_no_borrow :
    let s := run 0x8127 (regs [(1, 0x01), (2, 0x02)])
    s.readV 1 = 0x01 ∧ s.readV 15 = 1 := by
  decide

theorem test_shl :
    let s := run 0x810E (regs [(1, 0x81)])
    s.readV 1 = 0x02 ∧ s.readV 15 = 1 := by
  decide

theorem test_shl_no_carry :
    let s := run 0x810E (regs [(1, 0x40)])
    s.readV 1 = 0x80 ∧ s.readV 15 = 0 := by
  decide

/-! ### Address register (2.6), random (2.7) -/

theorem test_ldI : (run 0xAFFF State.reset).i = 0x0FFF := by decide

theorem test_addIVx :
    let s := run 0xF21E ((regs [(2, 0x02), (15, 0x07)]).writeI 0x0FFF)
    s.i = 0x1001 ∧ s.readV 15 = 0x07 := by
  decide

theorem test_addIVx_wraps : (run 0xF21E ((regs [(2, 0x01)]).writeI 0xFFFF)).i = 0x0000 := by decide

theorem test_ldFVx : (run 0xF429 (regs [(4, 0xA)])).i = 0x0032 ∧ (run 0xF429 (regs [(4, 0xFF)])).i = 0x04FB := by
  decide

/-- The draw is a free value, so the rows of 2.7 are of the meaning with a given draw. -/
theorem test_rnd_with_a_draw :
    (after (rndWith 0xB6 3 0x0F State.reset)).readV 3 = 0x06 ∧ (after (rndWith 0xFF 3 0xA5 State.reset)).readV 3 = 0xA5 := by
  decide

theorem test_rnd_uses_one_draw : (run 0xC300 State.reset).draws = 1 := by rfl

/-! ### Draw (2.8) -/

/-- S5: columns wrap. -/
theorem test_S5_wraparound :
    let s := run 0xD011 (bytes 0x300 [0xFF] ((regs [(0, 63), (1, 31)]).writeI 0x300))
    (s.disp.pixels.drop 1983).take 9 = [false, true, true, true, true, true, true, true, false] ∧
      s.disp.get 2047 = true ∧ s.readV 15 = 0 := by
  decide +kernel

/-- The glyph of 0 drawn at (0, 0), and drawn again over itself (S4's property, on the rows of 2.8): 14 lit pixels, rows 1
and 4 of them; then none, and the collision flag. -/
theorem test_S4_draw_glyph_twice :
    let s := run 0xD015 State.reset
    let t := run 0xD015 (s.writePC 0x200)
    s.disp.pixels.count true = 14 ∧ (s.disp.pixels.drop 64).take 5 = [true, false, false, true, false] ∧
      (s.disp.pixels.drop 256).take 5 = [true, true, true, true, false] ∧ s.readV 15 = 0 ∧
      t.disp.pixels.count true = 0 ∧ t.readV 15 = 1 := by
  decide +kernel

/-! ### Timers (2.9) -/

theorem test_ldVxDt : (run 0xF507 (State.reset.writeDT 0x3C)).readV 5 = 0x3C := by decide

theorem test_ldDtVx : (run 0xF515 (regs [(5, 0x3C)])).dt = 0x3C := by decide

theorem test_ldStVx : (run 0xF018 (regs [(0, 0x02)])).st = 0x02 := by decide

theorem test_timer_step_cue :
    let r := perform .tickTimers ((State.reset.writeDT 5).writeST 1)
    r.1.dt = 4 ∧ r.1.st = 0 ∧ r.2 = [Output.soundCue] := by
  decide

theorem test_timer_step_floor :
    let r := perform .tickTimers (State.reset.writeST 0xFF)
    r.1.dt = 0 ∧ r.1.st = 0xFE ∧ r.2 = [] := by
  decide

/-! ### Key wait (2.10), keypad and display transactions (2.11) -/

/-- S9. -/
theorem test_S9_wait_then_key :
    (run 0xF30A (regs [(3, 0x77)])).pc = 0x200 ∧ (run 0xF30A (regs [(3, 0x77)])).readV 3 = 0x77 ∧
    (run 0xF30A (keys [5, 9] State.reset)).readV 3 = 5 ∧ (run 0xF30A (keys [5, 9] State.reset)).pc = 0x202 := by
  decide

theorem test_wait_into_VF : (run 0xFF0A (keys [15] State.reset)).readV 15 = 0x0F := by decide

theorem test_keypress :
    (perform (.keypress 15 true) State.reset).1.key[15] = true ∧
    (perform (.keypress 3 false) (keys [3] State.reset)).1.key[3] = false := by
  decide

theorem test_keypress_index :
    (perform (.keypress 16 true) (State.reset.writePC 0x204)).1.fault = some ⟨.hostKeyIndex, 0x204, none⟩ := by
  decide

theorem test_faulted_machine_is_halted :
    (perform .tick halted).1.fault = halted.fault ∧ (perform (.keypress 0 true) halted).1.key[0] = false ∧
    (perform (.load [0x12, 0x00]) halted).1.mem = [] ∧ (perform .tickTimers (halted.writeDT 5)).1.dt = 5 := by
  decide

/-! ### BCD, dump and load (2.12); program load (2.1) -/

/-- S8. -/
theorem test_S8_bcd : peek (run 0xF133 ((regs [(1, 157)]).writeI 0x300)) 0x300 3 = some [1, 5, 7] := by decide

theorem test_bcd_bounds :
    let s := run 0xF033 (State.reset.writeI 0xFFE)
    s.fault = some ⟨.memBounds, 0x200, some 0xF033⟩ ∧ peek s 0xFFE 2 = some [0, 0] ∧ s.pc = 0x200 := by
  decide

theorem test_dump :
    let s := run 0xF255 ((regs [(0, 1), (1, 2), (2, 3), (3, 4)]).writeI 0x300)
    peek s 0x300 4 = some [1, 2, 3, 0] ∧ s.i = 0x300 := by
  decide

theorem test_dump_bounds :
    (run 0xFF55 (State.reset.writeI 0xFF1)).fault = some ⟨.memBounds, 0x200, some 0xFF55⟩ := by
  decide

theorem test_load :
    let s := run 0xF165 (bytes 0x300 [0xAA, 0xBB] ((regs [(2, 0x44)]).writeI 0x300))
    s.readV 0 = 0xAA ∧ s.readV 1 = 0xBB ∧ s.readV 2 = 0x44 ∧ s.i = 0x300 := by
  decide

theorem test_load_VF :
    (run 0xFF65 (bytes 0x30F [0x5C] (State.reset.writeI 0x300))).readV 15 = 0x5C := by
  decide

theorem test_program_load :
    let r := (perform (.load [0x12, 0x00]) ((regs [(1, 7)]).writeDT 4)).1
    peek r 0x200 2 = some [0x12, 0x00] ∧ r.readV 1 = 7 ∧ r.dt = 4 ∧ r.pc = 0x200 := by
  decide

/-- 3585 bytes are rejected. -/
theorem test_program_load_too_large :
    (perform (.load (List.replicate 3585 0x12)) State.reset).1.fault = some ⟨.loadTooLarge, 0x200, none⟩ := by
  decide +kernel

/-- The canonical form: writing back what an unlisted address reads as removes the entry. -/
theorem test_memory_canonical :
    Memory.put [(0x300, 0x12)] 0x300 0x00 = [] ∧ Memory.put [] 0 0xF0 = [] ∧ Memory.put [(9, 1)] 4 1 = [(4, 1), (9, 1)] := by
  decide

/-- The first and the last glyph (R34's default). -/
theorem test_glyphs :
    peek State.reset 0 5 = some [0xF0, 0x90, 0x90, 0x90, 0xF0] ∧
    peek State.reset 75 6 = some [0xF0, 0x80, 0xF0, 0x80, 0x80, 0x00] := by
  decide

/-- Every fault kind's code (R161). -/
theorem test_fault_codes :
    [Fault.decodeFault, .fetchBounds, .memBounds, .stackOverflow, .stackUnderflow, .keyIndex, .loadTooLarge,
      .hostKeyIndex].map Fault.code = [1, 2, 3, 4, 5, 6, 7, 8] := by
  decide

/-- The two orders of writing a flag differ where x = F (D5; the rejected order is the note in 2.5). -/
theorem test_flag_orders :
    ((regs [(15, 0xFF), (1, 0x01)]).writeResultFlag .resultLast 15 0x00 1).readV 15 = 0x00 ∧
    ((regs [(15, 0xFF), (1, 0x01)]).writeResultFlag .flagLast 15 0x00 1).readV 15 = 1 := by
  decide

/-! ### Witnesses: for each statement with hypotheses, a state and operands that meet them together -/

/-- A state that executes at 0x202: the fetch at 0x200 has been made. -/
def fetched : State := State.reset.writePC 0x202

theorem witness_DecodeOfEncodeIsTheInstruction : (Instr.drw 15 0 15).wellFormed = true := by decide

theorem witness_EncodeOfDecodeIsTheWord : decode 0xDF0F = some (.drw 15 0 15) := by decide

theorem witness_DecodeAcceptsExactlyTheOpcodeMap :
    (⟨0x8006, 0xF00F⟩ : OpcodeRow) ∈ opcodeMap ∧ (0x81F6 : Word) &&& 0xF00F = 0x8006 := by decide

/-- At the last address a fetch is possible at. -/
theorem witness_StepRunsTheDecodedInstruction :
    let s := bytes 0xFFE [0x60, 0x01] (State.reset.writePC 0xFFE)
    s.fault = none ∧ Memory.read s.mem s.pc.toNat = some 0x60 ∧ Memory.read s.mem (s.pc.toNat + 1) = some 0x01 ∧
      decode (0x60#8 ++ 0x01#8) = some (.ldImm 0 1) ∧ (Instr.ldImm 0 1).wellFormed = true := by
  decide

theorem witness_StepIsOneTick_halted : halted.fault ≠ none := by decide

theorem witness_StepIsOneTick_fetch_bounds :
    (State.reset.writePC 0xFFF).fault = none ∧ (State.reset.writePC 0xFFF).pc.toNat > 4094 := by decide

theorem witness_StepIsOneTick_illegal :
    State.reset.fault = none ∧ Memory.read State.reset.mem 0x200 = some 0 ∧ Memory.read State.reset.mem 0x201 = some 0 ∧
      decode (0#8 ++ 0#8) = none := by
  decide

/-- The executed instruction faults: RET with an empty stack. -/
theorem witness_StepIsOneTick_raises :
    let s := bytes 0x200 [0x00, 0xEE] State.reset
    s.fault = none ∧ Memory.read s.mem s.pc.toNat = some 0x00 ∧ Memory.read s.mem (s.pc.toNat + 1) = some 0xEE ∧
      decode (0x00#8 ++ 0xEE#8) = some .ret ∧ (after (exec .ret (s.writePC 0x202))).fault ≠ none := by
  decide

theorem witness_FetchReadsTheBigEndianWordAndAdvancesPC :
    (State.reset.writePC 0xFFE).fault = none ∧ (State.reset.writePC 0xFFE).pc.toNat ≤ 4094 ∧
      (State.reset.writePC 0xFFF).fault = none ∧ (State.reset.writePC 0xFFF).pc.toNat > 4094 ∧
      decode (0x00#8 ++ 0xE0#8) = some .cls := by
  decide

theorem witness_OnlyItsOwnCheckFaultsAnInstruction :
    fetched.fault = none ∧ ∃ t, exec .ret fetched = .next t ∧ t.fault = some ⟨.stackUnderflow, 0x200, some 0x00EE⟩ :=
  ⟨rfl, _, rfl, rfl⟩

theorem witness_OnlyItsOwnCheckFaultsAnInstruction_step :
    State.reset.fault = none ∧ ∃ t, step State.reset = .next t ∧ t.fault = some ⟨.decodeFault, 0x200, some 0⟩ :=
  ⟨rfl, _, rfl, rfl⟩

theorem witness_FaultedMachineIsHaltedForGood : halted.fault ≠ none := by decide

/-- A good state at the edge of every bound: a full stack of the highest return addresses, the highest PC, a fault. -/
def edge : State :=
  { State.reset with
    pc := 0x10FE, sp := 16, stack := Vector.replicate 16 0x1000, mem := [(0x300, 0x12)],
    fault := some ⟨.fetchBounds, 0x10FE, none⟩ }

theorem witness_StepKeepsTheStateGood_edge : edge.Good where
  memCanonical := by decide
  spInRange := by decide
  pcInRange := by decide
  returnsInRange := by decide
  faultFits := by
    intro r h
    simp only [edge, Option.some.injEq] at h
    subst h
    exact ⟨by decide, by decide⟩

/-- A good state whose step executes an instruction: a CALL with fifteen return addresses on the stack. -/
def calling : State := { bytes 0x200 [0x23, 0x00] State.reset with sp := 15 }

theorem witness_StepKeepsTheStateGood :
    calling.Good ∧ ∃ t, step calling = .next t ∧ t.sp = 16 ∧ t.pc = 0x300 := by
  refine ⟨⟨by decide, by decide, by decide, by decide, ?_⟩, _, rfl, by decide, by decide⟩
  intro r h
  cases h

/-- Some construction values: the default ones. -/
def defaults : Construction where
  glyphs := Vector.replicate 80 0
  initMem := Vector.replicate 4016 0
  initV := State.reset.v
  initI := 0
  initDisp := Display.blank
  initDT := 0
  initST := 0

theorem witness_EveryReachedStateIsGood : Reached (State.construct defaults) := ⟨defaults, [], [], rfl⟩

/-- The clauses of the PC list: at the ends of the stack and of the keypad. -/
theorem witness_EachInstructionLeavesPCAsListed_ret :
    let s := { fetched with sp := 16, stack := State.reset.stack.set 15 0x0ABC }
    s.fault = none ∧ ∃ t, exec .ret s = .next t ∧ t.fault = none ∧ t.pc = 0x0ABC :=
  ⟨rfl, _, rfl, rfl, rfl⟩

theorem witness_EachInstructionLeavesPCAsListed_skp :
    let s := keys [15] (fetched.writeV 0 15)
    s.fault = none ∧ ∃ t, exec (.skp 0) s = .next t ∧ t.fault = none ∧ t.pc = 0x204 :=
  ⟨by decide, _, rfl, by decide, by decide⟩

theorem witness_EachInstructionLeavesPCAsListed_sknp :
    let s := fetched.writeV 0 0
    s.fault = none ∧ ∃ t, exec (.sknp 0) s = .next t ∧ t.fault = none ∧ t.pc = 0x204 :=
  ⟨by decide, _, rfl, by decide, by decide⟩

theorem witness_EachInstructionLeavesPCAsListed_jumps :
    fetched.fault = none ∧ (∃ t, exec (.jp 0xFFF) fetched = .next t ∧ t.fault = none) ∧
      (∃ t, exec (.call 0x300) fetched = .next t ∧ t.fault = none) ∧
      (∃ t, exec (.jpV0 0xFFF) fetched = .next t ∧ t.fault = none) :=
  ⟨rfl, ⟨_, rfl, rfl⟩, ⟨_, rfl, rfl⟩, ⟨_, rfl, rfl⟩⟩

theorem witness_EachInstructionLeavesPCAsListed_others :
    fetched.fault = none ∧ (∃ t, exec (.seImm 0 0) fetched = .next t ∧ t.fault = none ∧ t.pc = 0x204) ∧
      (∃ t, exec (.ldVxK 0) fetched = .next t ∧ t.fault = none ∧ t.pc = 0x200) ∧
      (∃ t, exec .cls fetched = .next t ∧ t.fault = none ∧ t.pc = 0x202) :=
  ⟨rfl, ⟨_, rfl, by decide, by decide⟩, ⟨_, rfl, by decide, by decide⟩, ⟨_, rfl, rfl, rfl⟩⟩

theorem witness_RetPopsTheReturnAddress :
    ({ fetched with sp := 1 } : State).sp.toNat = (0 : Fin 16).val + 1 ∧
      ({ fetched with sp := 16 } : State).sp.toNat = (15 : Fin 16).val + 1 ∧ fetched.sp = 0 := by
  decide

theorem witness_CallPushesTheReturnAddress :
    fetched.sp.toNat = (0 : Fin 16).val ∧ ({ fetched with sp := 15 } : State).sp.toNat = (15 : Fin 16).val ∧
      ({ fetched with sp := 16 } : State).sp = 16 := by
  decide

theorem witness_RetAfterCallReturns :
    fetched.fault = none ∧ ∃ t, exec (.call 0x300) fetched = .next t ∧ t.fault = none ∧
      (t.writePC 0x302).stack = t.stack ∧ (t.writePC 0x302).sp = t.sp :=
  ⟨rfl, _, rfl, rfl, rfl, rfl⟩

theorem witness_KeySkipsTestTheKey :
    ((fetched.writeV 3 0).v[(3 : Reg)]).toNat = (0 : Fin 16).val ∧
      ((fetched.writeV 3 15).v[(3 : Reg)]).toNat = (15 : Fin 16).val ∧ ((fetched.writeV 3 16).v[(3 : Reg)]).toNat > 15 := by
  decide

theorem witness_CopyAndLogicWriteVxOnly (f : Bool → Bool → Bool) (hf : f = fun a b => a != b) :
    (Instr.xorReg 1 2, f) ∈ [(Instr.ldReg 1 2, fun _ b => b), (Instr.orReg 1 2, fun a b => a || b),
      (Instr.andReg 1 2, fun a b => a && b), (Instr.xorReg 1 2, fun a b => a != b)] := by
  subst hf; simp

/-- The last row of a sprite at 4095. -/
theorem witness_FlagAfterEachFlagWritingInstruction :
    fetched.fault = none ∧ ∃ t, exec (.drw 0 1 1) (fetched.writeI 0xFFF) = .next t ∧ t.fault = none :=
  ⟨rfl, _, rfl, by decide⟩

theorem witness_DrawXorsTheSprite_bounds :
    (15 : RowCount).val > 0 ∧ (fetched.writeI 0xFF2).i.toNat + (15 : RowCount).val - 1 > 4095 := by decide

theorem witness_DrawXorsTheSprite :
    ¬ ((15 : RowCount).val > 0 ∧ (fetched.writeI 0xFF1).i.toNat + (15 : RowCount).val - 1 > 4095) ∧
      ¬ ((0 : RowCount).val > 0 ∧ (fetched.writeI 0xFFFF).i.toNat + (0 : RowCount).val - 1 > 4095) := by
  decide

/-- A one-row, eight-column sprite on a clear display. -/
theorem witness_DrawingTwiceRestoresTheDisplay :
    let s := bytes 0x300 [0xFF] (fetched.writeI 0x300)
    (0 : Reg) ≠ 15 ∧ (1 : Reg) ≠ 15 ∧ s.fault = none ∧ (∀ p, s.disp.get p = false) ∧
      ∃ t, exec (.drw 0 1 1) s = .next t ∧ t.fault = none ∧ ∃ u, exec (.drw 0 1 1) t = .next u := by
  refine ⟨by decide, by decide, by decide, fun p => ?_, _, rfl, by decide, _, rfl⟩
  exact Display.get_blank p

theorem witness_OnlyClsAndDrwTouchTheDisplay : ∃ t, exec (.ldI 0x300) fetched = .next t := ⟨_, rfl⟩

theorem witness_KeyWaitTakesTheLowestKeyOrRepeats :
    (keys [15] fetched).key[(15 : Fin 16)] = true ∧ (∀ j : Fin 16, j < 15 → (keys [15] fetched).key[j] = false) ∧
      (keys [0, 9] fetched).key[(0 : Fin 16)] = true ∧ (∀ j : Fin 16, j < 0 → (keys [0, 9] fetched).key[j] = false) := by
  decide

theorem witness_KeyWaitTakesTheLowestKeyOrRepeats_waits :
    let s := bytes 0x200 [0xF3, 0x0A] State.reset
    s.fault = none ∧ (∀ j : Fin 16, s.key[j] = false) ∧
      Memory.readWord s.mem s.pc.toNat = some (Claims.word2b 0xF (Claims.nib 3) 0x0A) := by
  decide

theorem witness_KeypadIsSetByKeypressAndReadByThree :
    halted.fault ≠ none ∧ State.reset.fault = none ∧ 16 > 15 ∧ 15 < 16 ∧
      (∃ t outs, transact (.load [0x12]) State.reset = .next (t, outs)) ∧
      (∀ index pressed, Transaction.load [0x12] ≠ .keypress index pressed) :=
  ⟨by decide, rfl, by decide, by decide, ⟨_, _, rfl⟩, fun _ _ h => by cases h⟩

theorem witness_BcdStoresThreeDigits :
    (fetched.writeI 0xFFE).i.toNat + 2 > 4095 ∧ Memory.wf fetched.mem = true ∧
      (fetched.writeI 0xFFD).i.toNat + 2 ≤ 4095 ∧ (0xFFC < (fetched.writeI 0xFFD).i.toNat) := by
  decide

theorem witness_DumpStoresV0ToVx :
    (fetched.writeI 0xFF1).i.toNat + (15 : Reg).val > 4095 ∧ Memory.wf fetched.mem = true ∧
      (fetched.writeI 0xFF0).i.toNat + (15 : Reg).val ≤ 4095 ∧ (15 : Fin 16) ≤ (15 : Reg) := by
  decide

theorem witness_LoadFillsV0ToVx :
    (fetched.writeI 0x1000).i.toNat + (0 : Reg).val > 4095 ∧ (fetched.writeI 0xFFF).i.toNat + (0 : Reg).val ≤ 4095 ∧
      (0 : Fin 16) ≤ (0 : Reg) ∧ (0 : Reg) < (1 : Fin 16) := by
  decide

theorem witness_LoadAfterDumpRestores :
    let s := (fetched.writeV 0 0x6A).writeI 0x300
    Memory.wf s.mem = true ∧ s.fault = none ∧ ∃ t, exec (.ldMemVx 15) s = .next t ∧ t.fault = none ∧
      (t.writeV 0 0).mem = t.mem ∧ (t.writeV 0 0).i = t.i ∧ (∃ w, exec (.ldVxMem 15) (t.writeV 0 0) = .next w) ∧
      (15 : Fin 16) ≤ (15 : Reg) :=
  ⟨by decide, by decide, _, rfl, by decide, rfl, rfl, ⟨_, rfl⟩, by decide⟩

/-- P7's shape: FX55 writes 6A 77 over the next word. -/
theorem witness_NextStepRunsTheStoredWord :
    let s := ((fetched.writeV 0 0x6A).writeV 1 0x77).writeI 0x202
    Memory.wf s.mem = true ∧ s.fault = none ∧ 1 ≤ (1 : Reg).val ∧ s.i = s.pc ∧
      (∃ t, exec (.ldMemVx 1) s = .next t ∧ t.fault = none) ∧ decode (s.v[0] ++ s.v[1]) = some (.ldImm 10 0x77) :=
  ⟨by decide, by decide, by decide, by decide, ⟨_, rfl, by decide⟩, by decide⟩

theorem witness_CanonicalMemoriesAreEqualData :
    Memory.wf [(0x300, 0x12)] = true ∧
      Memory.wf (Memory.put (Memory.put [] 0x300 0x34) 0x300 0x12) = true ∧
      (∀ a, Memory.read [(0x300, 0x12)] a = Memory.read (Memory.put (Memory.put [] 0x300 0x34) 0x300 0x12) a) := by
  refine ⟨by decide, by decide, fun a => ?_⟩
  rw [show Memory.put (Memory.put [] 0x300 0x34) 0x300 0x12 = [(0x300, 0x12)] by decide]

theorem witness_RegisterAccessIsAsTabulated :
    fetched.fault = none ∧ (∃ t, exec (.addReg 1 2) fetched = .next t ∧ t.fault = none) ∧
      ¬ Claims.WritesV (.addReg 1 2) fetched 2 ∧ Claims.WritesV (.addReg 1 2) fetched 15 ∧
      (∀ r, Claims.ReadsV (.addReg 1 2) r → (fetched.v.set 3 0xFF)[r] = fetched.v[r]) := by
  refine ⟨rfl, ⟨_, rfl, rfl⟩, ?_, ?_, ?_⟩
  · simp only [Claims.WritesV]; decide
  · simp only [Claims.WritesV]; decide
  · simp only [Claims.ReadsV]; decide

theorem witness_OnlyTheListedInstructionsChangeEachPart : ∃ t, exec (.ldStVx 3) fetched = .next t := ⟨_, rfl⟩

theorem witness_ProgramLoadCopiesTheBytes :
    Memory.wf State.reset.mem = true ∧ State.reset.fault = none ∧ (List.replicate 3584 (0x12 : Byte)).length ≤ 3584 :=
  ⟨rfl, rfl, by rw [List.length_replicate]⟩

theorem witness_OversizeProgramLoadIsRejected :
    State.reset.fault = none ∧ (List.replicate 3585 (0x12 : Byte)).length > 3584 :=
  ⟨rfl, by rw [List.length_replicate]; decide⟩

theorem witness_TimerStepDecrementsBothTimers :
    halted.fault ≠ none ∧ State.reset.fault = none ∧ (∃ t, step State.reset = .next t) ∧
      (∃ t outs, transact (.load [0x12]) State.reset = .next (t, outs)) ∧
      Transaction.load [0x12] ≠ .tickTimers ∧ Transaction.load [0x12] ≠ .tick :=
  ⟨by decide, rfl, ⟨_, rfl⟩, ⟨_, _, rfl⟩, by decide, by decide⟩

/-- The self-jump 0x1200 at 0x200, and a faulted machine. -/
theorem witness_EndOfARunIsAFixedPointOfTick :
    (bytes 0x200 [0x12, 0x00] State.reset).ended ∧ halted.ended :=
  ⟨.inr ⟨0x200, by decide, by decide⟩, .inl (by decide)⟩

theorem witness_ResetStateIsAsTabulated : 79 < 80 ∧ 80 ≤ 80 ∧ 80 < 4096 ∧ 80 ≤ 4095 ∧ 4095 < 4096 ∧ 4096 ≤ 4096 := by
  decide

theorem witness_ConstructionPlacesTheGlyphSet : (4 : Nat) < 5 ∧ (4015 : Nat) < 4016 := by decide

theorem witness_StepRunsThePlacedWord :
    Memory.wf State.reset.mem = true ∧ decode 0xD125 = some (.drw 1 2 5) ∧ State.reset.fault = none ∧
      State.reset.pc.toNat ≤ 4094 := by
  decide

end Sys2Proof.Tests
end

section
/-! The fetch phase, one equation per outcome (20_memory.md R58), and the statement about it. -/

namespace Sys2Proof.Machine

variable {s : State} {m : Memory} {a : Nat} {w : Word} {i : Instr}

/-- A byte read inside memory answers its byte (R52). -/
theorem Memory.read_of_lt (h : a < 4096) : Memory.read m a = some (Memory.byteAt m a) := if_pos h

/-- Past 4094 the second byte of the word is outside memory, so the fetch faults (R58, R92). -/
theorem State.fetch_above_4094 (hf : s.fault = none) (hpc : 4094 < s.pc.toNat) :
    s.fetch = .ends (s.enterFault .fetchBounds s.pc none) := by
  have hw : Memory.readWord s.mem s.pc.toNat = none := by
    rw [Memory.readWord_eq, if_neg (Nat.not_le.mpr hpc)]
  simp [State.fetch, hf, hw]

/-- A legal word is handed to execution with PC already past it (R58). -/
theorem State.fetch_of_decode (hf : s.fault = none) (hw : Memory.readWord s.mem s.pc.toNat = some w)
    (hd : decode w = some i) : s.fetch = .runs i (s.writePC (s.pc + 2)) := by
  simp [State.fetch, hf, hw, hd]

/-- Where a fetch is possible, PC does not wrap when it moves past the word. -/
theorem toNat_add_two_of_le_4094 (h : w.toNat ≤ 4094) : (w + 2).toNat = w.toNat + 2 := by
  bv_omega

/-- Settles O9: the bound on PC decides whether the word at PC exists, and the two equations of the fetch give the rest. -/
theorem fetchReadsTheBigEndianWordAndAdvancesPC : Obligations.FetchReadsTheBigEndianWordAndAdvancesPC := by
  intro s hf
  refine ⟨State.fetch_above_4094 hf, fun hpc => ?_⟩
  have hw : Memory.readWord s.mem s.pc.toNat =
      some (Memory.byteAt s.mem s.pc.toNat ++ Memory.byteAt s.mem (s.pc.toNat + 1)) := by
    rw [Memory.readWord_eq, if_pos hpc]
  exact ⟨_, _, Memory.read_of_lt (by omega), Memory.read_of_lt (by omega), hw,
    fun _ hd => State.fetch_of_decode hf hw hd, toNat_add_two_of_le_4094 hpc⟩

end Sys2Proof.Machine
end

section
/-! What DRW answers, one equation per outcome (46_draw.md R145), and the statement about its pixels and its flag. -/

namespace Sys2Proof.Machine

open Sys2Proof.Claims

variable {s : State} {x y : Reg} {n : RowCount} {rows : List Byte} {cx cy : Nat}

/-! ### The word of DRW -/

theorem nibble_eq_nib (x : Fin 16) : nibble x = nib x := by
  apply BitVec.eq_of_toNat_eq; simp [nibble, nib]

theorem encode_drw (x y : Reg) (n : RowCount) :
    encode (.drw x y n) = word4 0xD (nib x) (nib y) (nib n) := by
  simp only [encode, packXYN, word4, nibble_eq_nib]

theorem decode_encode_drw (x y : Reg) (n : RowCount) : decode (encode (.drw x y n)) = some (.drw x y n) := by
  simp [decode, encode, nibble_toFin]

/-! ### The two outcomes -/

/-- The draw that DRW makes of the given rows: from an untouched display with no collision yet (R145). -/
def State.drawn (s : State) (x y : Reg) (rows : List Byte) : Draw :=
  Draw.spriteRows (s.readV x).toNat (s.readV y).toNat 0 rows ⟨s.disp, false⟩

theorem exec_drw_of_some (h : s.spriteBytes n = some rows) :
    exec (.drw x y n) s =
      .next ((s.writeDisp (s.drawn x y rows).disp).writeV VF (flagByte (s.drawn x y rows).collided)) := by
  simp only [exec, execDrw, h, State.drawn]

theorem exec_drw_of_none (h : s.spriteBytes n = none) :
    exec (.drw x y n) s = .next (s.raise .memBounds (.drw x y n)) := by
  simp only [exec, execDrw, h]

/-- A fault taken in the execute phase leaves what the statements call the faulted state (R91). -/
theorem State.raise_eq_faultedBy (s : State) (k : Fault) (i : Instr) : s.raise k i = faultedBy s k (encode i) := rfl

theorem State.spriteBytes_length (h : s.spriteBytes n = some rows) : rows.length = n.val := by
  rw [State.spriteBytes_eq] at h
  split at h <;> cases h
  simp

/-- The rows of a sprite that was read are the bytes at I, I+1, … (R144). -/
theorem State.spriteBytes_getElem? (h : s.spriteBytes n = some rows) (k : Nat) (b : Byte) :
    rows[k]? = some b ↔ k < n.val ∧ Memory.read s.mem (s.i.toNat + k) = some b := by
  rw [State.spriteBytes_eq] at h
  split at h <;> cases h
  simp only [List.getElem?_map, Option.map_eq_some_iff]
  by_cases hk : k < n.val
  · rw [Memory.read_of_lt (by omega)]
    simp [hk]
  · simp [hk]

/-! ### Covered pixels -/

theorem covers_iff_rowsCover (h : s.spriteBytes n = some rows) (p : Fin Config.dispSize) :
    Covers s cx cy n.val p ↔ rowsCover cx cy 0 rows p := by
  constructor
  · rintro ⟨row, col, b, hrow, hcol, hread, hbit, hp⟩
    exact ⟨row, b, (State.spriteBytes_getElem? h row b).2 ⟨hrow, hread⟩, col, by simp; omega, hbit,
      Fin.ext (by rw [hp, pixelIndex_val, Nat.zero_add])⟩
  · rintro ⟨row, b, hb, col, hcol, hbit, rfl⟩
    obtain ⟨hrow, hread⟩ := (State.spriteBytes_getElem? h row b).1 hb
    exact ⟨row, col, b, hrow, by simp at hcol; omega, hread, hbit, by rw [pixelIndex_val, Nat.zero_add]⟩

/-- A sprite that was read inverts exactly the pixels it covers; it has at most 15 rows, so none of them twice. -/
theorem State.drawn_inverted (h : s.spriteBytes n = some rows) :
    Draw.Inverted (Covers s (s.readV x).toNat (s.readV y).toNat n.val) ⟨s.disp, false⟩ (s.drawn x y rows) := by
  have hc : Covers s (s.readV x).toNat (s.readV y).toNat n.val =
      rowsCover (s.readV x).toNat (s.readV y).toNat 0 rows :=
    funext fun p => propext (covers_iff_rowsCover h p)
  rw [hc]
  exact Draw.spriteRows_inverted _ _ _ _ _ (by rw [State.spriteBytes_length h]; omega)

theorem flagByte_eq_zero_or_one (b : Bool) : flagByte b = 0 ∨ flagByte b = 1 := by cases b <;> decide

theorem flagByte_eq_one_iff (b : Bool) : flagByte b = 1 ↔ b = true := by cases b <;> decide

/-- Writing VF and reading it back, in the form the statements use. -/
theorem State.writeV_VF_get (s : State) (b : Byte) : (s.writeV VF b).v[15] = b := by simp

/-- Settles O33: whether the sprite's bytes can be read decides the outcome, and a sprite that was read inverts the
pixels it covers. -/
theorem drawXorsTheSprite : Obligations.DrawXorsTheSprite := by
  intro s x y n
  rw [← encode_drw]
  refine ⟨decode_encode_drw x y n, fun hout => ?_, fun hin => ?_⟩
  · have hnone : s.spriteBytes n = none := by rw [State.spriteBytes_eq, if_neg (by omega)]
    rw [exec_drw_of_none hnone, State.raise_eq_faultedBy]
  · obtain ⟨rows, hrows⟩ : ∃ rows, s.spriteBytes n = some rows :=
      ⟨_, by rw [State.spriteBytes_eq, if_pos (by omega)]⟩
    obtain ⟨hpixels, hcollided⟩ := State.drawn_inverted (x := x) (y := y) hrows
    refine ⟨_, exec_drw_of_some hrows, hpixels, ?_, ?_, fun r hr => ?_, rfl⟩
    · rw [State.writeV_VF_get]
      exact flagByte_eq_zero_or_one _
    · rw [State.writeV_VF_get, flagByte_eq_one_iff]
      exact hcollided.trans (or_iff_right Bool.false_ne_true)
    · have : 15 ≠ r.val := fun e => hr (Fin.ext e.symm)
      simp [this]

end Sys2Proof.Machine
end

section
/-! No instruction but CLS and DRW looks at the display or writes it (46_draw.md R146): replacing the display commutes
with each operation they use, and so with `exec`. -/

namespace Sys2Proof.Machine

open Sys2Proof.Claims

variable (s : State) (d : Display)

/-! ### Replacing the display commutes with the operations -/

theorem State.writeDisp_self : s.writeDisp s.disp = s := rfl

@[simp] theorem State.readV_writeDisp (x : Reg) : (s.writeDisp d).readV x = s.readV x := rfl

@[simp] theorem State.keyAt_writeDisp (k : Byte) : (s.writeDisp d).keyAt k = s.keyAt k := rfl

@[simp] theorem State.lowestKey_writeDisp : (s.writeDisp d).lowestKey = s.lowestKey := rfl

@[simp] theorem State.regsUpTo_writeDisp (x : Reg) : (s.writeDisp d).regsUpTo x = s.regsUpTo x := rfl

@[simp] theorem State.storeAtI_writeDisp (bs : List Byte) : (s.writeDisp d).storeAtI bs = s.storeAtI bs := rfl

@[simp] theorem State.regBytesAtI_writeDisp (x : Reg) : (s.writeDisp d).regBytesAtI x = s.regBytesAtI x := rfl

theorem State.skipIf_writeDisp (c : Bool) : (s.writeDisp d).skipIf c = (s.skipIf c).writeDisp d := by
  cases c <;> rfl

theorem State.push_writeDisp (a : Word) : (s.writeDisp d).push a = (s.push a).map (·.writeDisp d) := by
  rcases s.push_cases a with ⟨h, hp⟩ | ⟨h, hp⟩ <;> rw [hp]
  · exact dif_pos h
  · exact dif_neg (Nat.not_lt.2 h)

theorem State.pop_of_sp_ne_zero (h : s.sp ≠ 0) :
    s.pop = (s.stack[(s.sp - 1).toNat]?).map fun a => (a, { s with sp := s.sp - 1 }) := if_neg h

theorem State.pop_writeDisp : (s.writeDisp d).pop = s.pop.map (Prod.map id (·.writeDisp d)) := by
  by_cases h : s.sp = 0
  · simp [State.pop, h]
  · rw [State.pop_of_sp_ne_zero s h, Option.map_map]
    exact State.pop_of_sp_ne_zero (s.writeDisp d) h

theorem skipOnKey_writeDisp (x : Reg) (pressed : Bool) (i : Instr) :
    skipOnKey x pressed i (s.writeDisp d) = onNext (·.writeDisp d) (skipOnKey x pressed i s) := by
  simp only [skipOnKey, State.readV_writeDisp, State.keyAt_writeDisp]
  cases s.keyAt (s.readV x) with
  | none => rfl
  | some k => exact congrArg Host.Outcome.next (State.skipIf_writeDisp ..)

/-! ### Replacing the display commutes with every instruction but CLS and DRW -/

theorem exec_writeDisp (i : Instr) (hcls : i ≠ .cls) (hdrw : ∀ x y n, i ≠ .drw x y n) :
    exec i (s.writeDisp d) = onNext (·.writeDisp d) (exec i s) := by
  cases i with
  | cls => exact absurd rfl hcls
  | drw x y n => exact absurd rfl (hdrw x y n)
  | ret =>
    simp only [exec, execRet, State.pop_writeDisp]
    cases s.pop <;> rfl
  | call nnn =>
    simp only [exec, execCall, State.push_writeDisp, State.writeDisp_pc]
    cases s.push s.pc <;> rfl
  | seImm | sneImm | seReg | sneReg => exact congrArg Host.Outcome.next (State.skipIf_writeDisp ..)
  | skp | sknp => exact skipOnKey_writeDisp ..
  | ldVxK x =>
    simp only [exec, execLdVxK, State.lowestKey_writeDisp]
    cases s.lowestKey <;> rfl
  | ldBVx x =>
    simp only [exec, execLdBVx, State.storeAtI_writeDisp, State.readV_writeDisp]
    cases s.storeAtI (bcdDigits (s.readV x)) <;> rfl
  | ldMemVx x =>
    simp only [exec, execLdMemVx, State.storeAtI_writeDisp, State.regsUpTo_writeDisp]
    cases s.storeAtI (s.regsUpTo x) <;> rfl
  | ldVxMem x =>
    simp only [exec, execLdVxMem, State.regBytesAtI_writeDisp]
    cases s.regBytesAtI x <;> rfl
  | _ => rfl

/-- An instruction that commutes with replacing the display does not write it: replace it by itself. -/
theorem disp_eq_of_exec {s t : State} (i : Instr) (hcls : i ≠ .cls) (hdrw : ∀ x y n, i ≠ .drw x y n)
    (h : exec i s = .next t) : t.disp = s.disp := by
  have hself := exec_writeDisp s s.disp i hcls hdrw
  rw [State.writeDisp_self, h] at hself
  have ht : t = t.writeDisp s.disp := Host.Outcome.next.inj hself
  rw [ht, State.writeDisp_disp]

/-- The display reaches what DRW leaves only through the display itself and VF. -/
theorem exec_drw_writeDisp (x y : Reg) (n : RowCount) :
    ∃ t t', exec (.drw x y n) s = .next t ∧ exec (.drw x y n) (s.writeDisp d) = .next t' ∧
      { t' with disp := t.disp, v := t'.v.set 15 t.v[15] } = t := by
  cases h : s.spriteBytes n with
  | none => exact ⟨_, _, exec_drw_of_none h, exec_drw_of_none h, by apply State.ext <;> simp⟩
  | some rows => exact ⟨_, _, exec_drw_of_some h, exec_drw_of_some h, by apply State.ext <;> simp⟩

/-- Settles O35: CLS overwrites the display, DRW lets it into VF only, and every other instruction commutes with
replacing it. -/
theorem onlyClsAndDrwTouchTheDisplay : Obligations.OnlyClsAndDrwTouchTheDisplay := by
  intro i s d
  split
  next => rfl
  next x y n => exact exec_drw_writeDisp s d x y n
  next hcls hdrw => exact ⟨fun _ => disp_eq_of_exec _ hcls hdrw, exec_writeDisp s d _ hcls hdrw⟩

end Sys2Proof.Machine
end

section
/-! FX0A, one equation per outcome of the scan of the keys (48_key_wait.md R152), and the statement about it. -/

namespace Sys2Proof.Machine

open Sys2Proof.Claims

variable {s : State} {x : Reg} {k : Fin 16} {w : Word} {i : Instr}

/-! ### The word of LD Vx, K -/

theorem encode_ldVxK (x : Reg) : encode (.ldVxK x) = word2b 0xF (nib x) 0x0A := by
  simp only [encode, packXNN, word2b, nibble_eq_nib]

theorem decode_encode_ldVxK (x : Reg) : decode (encode (.ldVxK x)) = some (.ldVxK x) := by
  simp [decode, decodeMisc, encode]

/-! ### What the scan answers -/

/-- The scan finds a lowest pressed key, and two of them cannot differ: the lower one would be below the other. -/
theorem State.lowestKey_of_pressed (hk : s.key[k] = true) (hlow : ∀ j : Fin 16, j < k → s.key[j] = false) :
    s.lowestKey = some k.val := by
  rcases s.lowestKey_cases with ⟨l, hl, hpressed, hbelow⟩ | ⟨-, hnone⟩
  · have hlk : l = k := by
      rcases lt_trichotomy l k with h | h | h
      · exact absurd hpressed (by simp [hlow l h])
      · exact h
      · exact absurd hk (by simp [hbelow k h])
    rw [hl, hlk]
  · exact absurd hk (by simp [hnone k])

theorem State.lowestKey_of_none_pressed (hnone : ∀ j : Fin 16, s.key[j] = false) : s.lowestKey = none := by
  rcases s.lowestKey_cases with ⟨k, -, hpressed, -⟩ | ⟨h, -⟩
  · exact absurd hpressed (by simp [hnone k])
  · exact h

/-! ### The two outcomes, and a step that waits -/

theorem exec_ldVxK_of_pressed (hk : s.key[k] = true) (hlow : ∀ j : Fin 16, j < k → s.key[j] = false) :
    exec (.ldVxK x) s = .next (s.writeV x (BitVec.ofNat 8 k.val)) := by
  simp only [exec, execLdVxK, State.lowestKey_of_pressed hk hlow]

theorem exec_ldVxK_of_none_pressed (hnone : ∀ j : Fin 16, s.key[j] = false) :
    exec (.ldVxK x) s = .next (s.writePC (s.pc - 2)) := by
  simp only [exec, execLdVxK, State.lowestKey_of_none_pressed hnone]

/-- A step over a legal word is its instruction, executed with PC past the word (R90). -/
theorem step_of_decode (hf : s.fault = none) (hw : Memory.readWord s.mem s.pc.toNat = some w)
    (hd : decode w = some i) : step s = exec i (s.writePC (s.pc + 2)) := by
  simp only [step, State.fetch_of_decode hf hw hd]

/-- Rewinding PC after the fetch undoes the fetch. -/
theorem State.rewind_after_fetch (s : State) :
    (s.writePC (s.pc + 2)).writePC ((s.writePC (s.pc + 2)).pc - 2) = s := by
  apply State.ext <;> simp

theorem step_eq_self_of_waiting (hf : s.fault = none) (hnone : ∀ j : Fin 16, s.key[j] = false)
    (hw : Memory.readWord s.mem s.pc.toNat = some (encode (.ldVxK x))) : step s = .next s := by
  have hnone' : ∀ j : Fin 16, (s.writePC (s.pc + 2)).key[j] = false := hnone
  rw [step_of_decode hf hw (decode_encode_ldVxK x), exec_ldVxK_of_none_pressed hnone', State.rewind_after_fetch]

/-- Settles O36: the scan of the keys decides between the two outcomes, and the rewind of a waiting step undoes its
fetch. -/
theorem keyWaitTakesTheLowestKeyOrRepeats : Obligations.KeyWaitTakesTheLowestKeyOrRepeats := by
  simp only [Obligations.KeyWaitTakesTheLowestKeyOrRepeats, ← encode_ldVxK]
  exact ⟨decode_encode_ldVxK, fun _ _ _ hk hlow => exec_ldVxK_of_pressed hk hlow,
    fun _ _ hnone => exec_ldVxK_of_none_pressed hnone,
    fun _ _ hf hnone hw => step_eq_self_of_waiting hf hnone hw⟩

end Sys2Proof.Machine
end

section
/-! The block transfers FX33, FX55 and FX65, one equation per outcome of the bounds check (49_memory_block.md R155 to
R158), and the statements about them. -/

namespace Sys2Proof.Machine

open Sys2Proof.Claims

variable {s : State} {x k : Reg} {m : Memory} {a p j : Nat} {b : Byte} {bs : List Byte}

/-! ### The words of family 0xF -/

theorem packXNN_eq_word2b (f : BitVec 4) (x : Reg) (nn : Byte) : packXNN f x nn = word2b f (nib x) nn := by
  simp only [packXNN, word2b, nibble_eq_nib]

/-- In family 0xF the low byte alone selects the operation (R86). -/
theorem decode_word2b_F (x : Reg) (nn : Byte) : decode (word2b 0xF (nib x) nn) = decodeMisc x nn := by
  simp [← packXNN_eq_word2b, decode]

/-- A fault taken by an instruction of the layout `F x NN`, in the form the statements use. -/
theorem State.raise_eq_faultedBy_word2b (s : State) (kind : Fault) {i : Instr} {f : BitVec 4} {nn : Byte}
    (h : encode i = packXNN f x nn) : s.raise kind i = faultedBy s kind (word2b f (nib x) nn) := by
  rw [State.raise_eq_faultedBy, h, packXNN_eq_word2b]

/-! ### Memory after a run of writes -/

theorem Memory.read_fill_of_getElem? (hm : Memory.wf m = true) (ha : a + bs.length ≤ 4096) (hj : bs[j]? = some b) :
    Memory.read (Memory.fill m a bs) (a + j) = some b := by
  have hlt : j < bs.length := (List.getElem?_eq_some_iff.1 hj).1
  rw [Memory.read_of_lt (by omega), Memory.byteAt_fill hm ha, if_pos (by omega), Nat.add_sub_cancel_left,
    List.getD_eq_getElem?_getD, hj, Option.getD_some]

theorem Memory.read_fill_outside (hp : p < a ∨ a + bs.length ≤ p) :
    Memory.read (Memory.fill m a bs) p = Memory.read m p := by
  simp only [Memory.read, Memory.byteAt_fill_outside hp]

theorem State.storeAtI_of_fits (hne : bs ≠ []) (h : s.i.toNat + bs.length ≤ 4096) :
    s.storeAtI bs = some (Memory.fill s.mem s.i.toNat bs) := by
  rw [State.storeAtI_eq s bs (List.length_pos_of_ne_nil hne), if_pos h]

/-- A store that does not fit is MemBounds, wherever its first byte stands (R155). -/
theorem State.storeAtI_of_not_fits (hne : bs ≠ []) (h : 4096 < s.i.toNat + bs.length) : s.storeAtI bs = none := by
  rw [State.storeAtI_eq s bs (List.length_pos_of_ne_nil hne), if_neg (Nat.not_le.2 h)]

/-! ### What is stored and what is loaded -/

@[simp] theorem bcdDigits_length (b : Byte) : (bcdDigits b).length = 3 := rfl

theorem bcdDigits_ne_nil (b : Byte) : bcdDigits b ≠ [] := List.cons_ne_nil _ _

theorem State.regsUpTo_ne_nil (s : State) (x : Reg) : s.regsUpTo x ≠ [] :=
  List.ne_nil_of_length_pos (by rw [State.regsUpTo_length]; omega)

theorem State.regsUpTo_getElem? (hk : k ≤ x) : (s.regsUpTo x)[k.val]? = some s.v[k] := by
  have hlt : k.val < (s.regsUpTo x).length := by
    rw [State.regsUpTo_length]
    exact Nat.lt_succ_of_le hk
  rw [← State.regsUpTo_get s x k hk, List.getD_eq_getElem _ _ hlt, List.getElem?_eq_getElem hlt]

/-- The bytes from address `a` on that FX65 with operand `x` puts into V0..Vx (R158). -/
def Memory.bytesUpTo (m : Memory) (a : Nat) (x : Reg) : List Byte :=
  (List.range (x.val + 1)).map fun k => Memory.byteAt m (a + k)

@[simp] theorem Memory.bytesUpTo_length (m : Memory) (a : Nat) (x : Reg) :
    (Memory.bytesUpTo m a x).length = x.val + 1 := by
  simp [Memory.bytesUpTo]

theorem State.loadRegs_bytesUpTo_of_le (hk : k ≤ x) :
    (s.loadRegs (Memory.bytesUpTo m a x)).v[k] = Memory.byteAt m (a + k.val) := by
  have hlt : k.val < x.val + 1 := Nat.lt_succ_of_le hk
  rw [State.loadRegs_v, setRegsFrom_get, Memory.bytesUpTo_length, if_pos (by omega)]
  simp [Memory.bytesUpTo, hlt]

theorem State.loadRegs_bytesUpTo_of_gt (hk : x < k) : (s.loadRegs (Memory.bytesUpTo m a x)).v[k] = s.v[k] := by
  have hlt : x.val < k.val := hk
  rw [State.loadRegs_v, setRegsFrom_get, Memory.bytesUpTo_length, if_neg (by omega)]

/-! ### The two outcomes of each -/

theorem exec_ldBVx_of_le (h : s.i.toNat + 2 ≤ 4095) :
    exec (.ldBVx x) s = .next (s.writeMem (Memory.fill s.mem s.i.toNat (bcdDigits (s.readV x)))) := by
  have hfits : s.i.toNat + (bcdDigits (s.readV x)).length ≤ 4096 := by rw [bcdDigits_length]; omega
  simp only [exec, execLdBVx, State.storeAtI_of_fits (bcdDigits_ne_nil _) hfits]

theorem exec_ldBVx_of_gt (h : 4095 < s.i.toNat + 2) :
    exec (.ldBVx x) s = .next (s.raise .memBounds (.ldBVx x)) := by
  have hout : 4096 < s.i.toNat + (bcdDigits (s.readV x)).length := by rw [bcdDigits_length]; omega
  simp only [exec, execLdBVx, State.storeAtI_of_not_fits (bcdDigits_ne_nil _) hout]

theorem exec_ldMemVx_of_le (h : s.i.toNat + x.val ≤ 4095) :
    exec (.ldMemVx x) s = .next (s.writeMem (Memory.fill s.mem s.i.toNat (s.regsUpTo x))) := by
  have hfits : s.i.toNat + (s.regsUpTo x).length ≤ 4096 := by rw [State.regsUpTo_length]; omega
  simp only [exec, execLdMemVx, State.storeAtI_of_fits (State.regsUpTo_ne_nil s x) hfits]

theorem exec_ldMemVx_of_gt (h : 4095 < s.i.toNat + x.val) :
    exec (.ldMemVx x) s = .next (s.raise .memBounds (.ldMemVx x)) := by
  have hout : 4096 < s.i.toNat + (s.regsUpTo x).length := by rw [State.regsUpTo_length]; omega
  simp only [exec, execLdMemVx, State.storeAtI_of_not_fits (State.regsUpTo_ne_nil s x) hout]

theorem exec_ldVxMem_of_le (h : s.i.toNat + x.val ≤ 4095) :
    exec (.ldVxMem x) s = .next (s.loadRegs (Memory.bytesUpTo s.mem s.i.toNat x)) := by
  simp only [exec, execLdVxMem, State.regBytesAtI_eq, if_pos h, Memory.bytesUpTo]

theorem exec_ldVxMem_of_gt (h : 4095 < s.i.toNat + x.val) :
    exec (.ldVxMem x) s = .next (s.raise .memBounds (.ldVxMem x)) := by
  simp only [exec, execLdVxMem, State.regBytesAtI_eq, if_neg (Nat.not_le.2 h)]

/-! ### The statements -/

/-- Settles O38: the bound on I + 2 decides the outcome, and the three digits are a run of writes at I. -/
theorem bcdStoresThreeDigits : Obligations.BcdStoresThreeDigits := by
  intro s x
  refine ⟨decode_word2b_F x 0x33, fun hout => ?_, fun hwf hin => ?_⟩
  · rw [exec_ldBVx_of_gt hout, State.raise_eq_faultedBy_word2b s _ rfl]
  · have hfits : s.i.toNat + (bcdDigits (s.readV x)).length ≤ 4096 := by rw [bcdDigits_length]; omega
    exact ⟨_, exec_ldBVx_of_le hin, Memory.read_fill_of_getElem? (j := 0) hwf hfits rfl,
      Memory.read_fill_of_getElem? (j := 1) hwf hfits rfl, Memory.read_fill_of_getElem? (j := 2) hwf hfits rfl,
      fun a ha => Memory.read_fill_outside (by rw [bcdDigits_length]; omega), rfl⟩

/-- Settles O39: the bound on I + x decides the outcome, and V0..Vx are a run of writes at I. -/
theorem dumpStoresV0ToVx : Obligations.DumpStoresV0ToVx := by
  intro s x
  refine ⟨decode_word2b_F x 0x55, fun hout => ?_, fun hwf hin => ?_⟩
  · rw [exec_ldMemVx_of_gt hout, State.raise_eq_faultedBy_word2b s _ rfl]
  · have hfits : s.i.toNat + (s.regsUpTo x).length ≤ 4096 := by rw [State.regsUpTo_length]; omega
    exact ⟨_, exec_ldMemVx_of_le hin,
      fun k hk => Memory.read_fill_of_getElem? hwf hfits (State.regsUpTo_getElem? hk),
      fun a ha => Memory.read_fill_outside (by rw [State.regsUpTo_length]; omega), rfl⟩

/-- Settles O40: the bound on I + x decides the outcome, and the bytes read from I on fill V0..Vx and no register
above. -/
theorem loadFillsV0ToVx : Obligations.LoadFillsV0ToVx := by
  intro s x
  refine ⟨decode_word2b_F x 0x65, fun hout => ?_, fun hin => ?_⟩
  · rw [exec_ldVxMem_of_gt hout, State.raise_eq_faultedBy_word2b s _ rfl]
  · refine ⟨_, exec_ldVxMem_of_le hin, fun k hk => ?_, fun k hk => State.loadRegs_bytesUpTo_of_gt hk, rfl⟩
    have hkx : k.val ≤ x.val := hk
    rw [State.loadRegs_bytesUpTo_of_le hk, Memory.read_of_lt (by omega)]

end Sys2Proof.Machine
end

section
/-! KEY, DT and ST over one instruction, one step and one transaction (10_state.md R30, R32): who changes them. -/

namespace Sys2Proof.Machine

variable {i : Instr} {s t : State} {outs : List Output}

/-! ### One instruction and one step -/

/-- No instruction writes KEY; only FX15 writes DT, and only FX18 writes ST. -/
def KeepsKeysAndTimers (i : Instr) (s t : State) : Prop :=
  t.key = s.key ∧ (t.dt = s.dt ∨ ∃ x, i = .ldDtVx x) ∧ (t.st = s.st ∨ ∃ x, i = .ldStVx x)

theorem KeepsKeysAndTimers.of_eq (hkey : t.key = s.key) (hdt : t.dt = s.dt) (hst : t.st = s.st) :
    KeepsKeysAndTimers i s t := ⟨hkey, .inl hdt, .inl hst⟩

theorem Executed.keepsKeysAndTimers (h : Executed i s t) : KeepsKeysAndTimers i s t := by
  cases i with
  | ldDtVx x => cases h; exact ⟨rfl, .inr ⟨x, rfl⟩, .inl rfl⟩
  | ldStVx x => cases h; exact ⟨rfl, .inl rfl, .inr ⟨x, rfl⟩⟩
  | seImm | sneImm | seReg | sneReg => cases h; exact .of_eq (by simp) (by simp) (by simp)
  | skp | sknp => obtain ⟨_, _, rfl⟩ := h; exact .of_eq (by simp) (by simp) (by simp)
  | ret => obtain ⟨_, _, rfl⟩ := h; exact .of_eq rfl rfl rfl
  | call => obtain ⟨_, rfl⟩ := h; exact .of_eq rfl rfl rfl
  | drw => obtain ⟨_, _, _, _, rfl⟩ := h; exact .of_eq rfl rfl rfl
  | ldVxK => obtain ⟨_, _, _, rfl⟩ | ⟨_, rfl⟩ := h <;> exact .of_eq rfl rfl rfl
  | ldBVx | ldMemVx | ldVxMem => obtain ⟨_, rfl⟩ := h; exact .of_eq rfl rfl rfl
  | _ => cases h; exact .of_eq rfl rfl rfl

theorem exec_keepsKeysAndTimers (h : exec i s = .next t) : KeepsKeysAndTimers i s t := by
  obtain he | ⟨_, _, rfl⟩ := exec_cases i s t h
  · exact he.keepsKeysAndTimers
  · exact .of_eq rfl rfl rfl

/-- A step leaves KEY, DT and ST alone, or it runs an instruction, and then that instruction decides. -/
theorem step_keepsKeysAndTimers (h : step s = .next t) :
    (t.key = s.key ∧ t.dt = s.dt ∧ t.st = s.st) ∨ ∃ i u, s.fetch = .runs i u ∧ KeepsKeysAndTimers i s t := by
  obtain ⟨-, rfl⟩ | ⟨-, -, rfl⟩ | ⟨_, -, -, -, rfl⟩ | ⟨w, i, hf, hw, hd, hexec⟩ := step_cases s t h
  · exact .inl ⟨rfl, rfl, rfl⟩
  · exact .inl ⟨rfl, rfl, rfl⟩
  · exact .inl ⟨rfl, rfl, rfl⟩
  · exact .inr ⟨i, _, State.fetch_of_decode hf hw hd, (exec_keepsKeysAndTimers hexec :)⟩

theorem key_eq_of_step (h : step s = .next t) : t.key = s.key := by
  obtain ⟨hkey, -, -⟩ | ⟨_, _, -, hkey, -, -⟩ := step_keepsKeysAndTimers h <;> exact hkey

theorem dt_eq_of_step (h : step s = .next t) : t.dt = s.dt ∨ ∃ x u, s.fetch = .runs (.ldDtVx x) u := by
  obtain ⟨-, hdt, -⟩ | ⟨_, u, hfetch, -, hdt | ⟨x, rfl⟩, -⟩ := step_keepsKeysAndTimers h
  · exact .inl hdt
  · exact .inl hdt
  · exact .inr ⟨x, u, hfetch⟩

theorem st_eq_of_step (h : step s = .next t) : t.st = s.st ∨ ∃ x u, s.fetch = .runs (.ldStVx x) u := by
  obtain ⟨-, -, hst⟩ | ⟨_, u, hfetch, -, -, hst | ⟨x, rfl⟩⟩ := step_keepsKeysAndTimers h
  · exact .inl hst
  · exact .inl hst
  · exact .inr ⟨x, u, hfetch⟩

/-! ### One transaction -/

/-- A `tick` that answers is a step, and it puts nothing out (R39, R90). -/
theorem step_of_transact_tick (h : transact .tick s = .next (t, outs)) : step s = .next t ∧ outs = [] := by
  simp only [transact] at h
  split at h <;> cases h
  exact ⟨‹_›, rfl⟩

variable (s) (bytes : List Byte) (index : Nat) (pressed : Bool)

@[simp] theorem State.load_key : (s.load bytes).key = s.key := by unfold State.load; split_ifs <;> rfl
@[simp] theorem State.load_dt : (s.load bytes).dt = s.dt := by unfold State.load; split_ifs <;> rfl
@[simp] theorem State.load_st : (s.load bytes).st = s.st := by unfold State.load; split_ifs <;> rfl

@[simp] theorem State.keypress_dt : (s.keypress index pressed).dt = s.dt := by
  unfold State.keypress; split_ifs <;> rfl
@[simp] theorem State.keypress_st : (s.keypress index pressed).st = s.st := by
  unfold State.keypress; split_ifs <;> rfl

variable {s index}

/-- A faulted machine ignores the keypad (R160). -/
theorem State.keypress_of_faulted (hf : s.fault ≠ none) : s.keypress index pressed = s :=
  if_pos (Option.isSome_iff_ne_none.2 hf)

/-- An index above 15 is the host's mistake (R168). -/
theorem State.keypress_of_gt (hf : s.fault = none) (h : 15 < index) :
    s.keypress index pressed = s.enterFault .hostKeyIndex s.pc none := by
  simp [State.keypress, hf, show ¬ index < 16 by omega]

theorem State.keypress_of_lt (hf : s.fault = none) (h : index < 16) :
    s.keypress index pressed = s.writeKey ⟨index, h⟩ pressed := by
  simp [State.keypress, hf, h]

/-- A faulted machine's timers stand still (R160). -/
theorem State.tickTimers_of_faulted (hf : s.fault ≠ none) : s.tickTimers = (s, []) :=
  if_pos (Option.isSome_iff_ne_none.2 hf)

theorem State.tickTimers_of_running (hf : s.fault = none) :
    s.tickTimers = (s.countTimers, if s.soundCue then [.soundCue] else []) := by
  simp [State.tickTimers, hf]

variable (s)

@[simp] theorem State.tickTimers_key : s.tickTimers.1.key = s.key := by
  unfold State.tickTimers; split_ifs <;> rfl

theorem State.soundCue_eq_true_iff : s.soundCue = true ↔ s.st.toNat = 1 := by
  rw [State.soundCue, beq_iff_eq]
  exact BitVec.toNat_inj.symm

theorem countDown_eq_ofNat (b : Byte) : countDown b = BitVec.ofNat 8 (b.toNat - 1) := by
  apply BitVec.eq_of_toNat_eq
  rw [countDown_toNat, BitVec.toNat_ofNat, Nat.mod_eq_of_lt (by omega)]

end Sys2Proof.Machine
end

section
/-! KEY is an input (60_exceptions.md R176): no instruction but SKP, SKNP and LD Vx, K looks at it, so replacing it
commutes with every other one; and the statement about `keypress`. -/

namespace Sys2Proof.Machine

open Sys2Proof.Claims

/-! ### Replacing the keypad commutes with the operations -/

/-- The whole keypad replaced, as a host's run of `keypress` could leave it. -/
def State.withKeys (s : State) (keys : Vector Bool 16) : State := { s with key := keys }

variable (s : State) (keys : Vector Bool 16)

@[simp] theorem State.withKeys_pc : (s.withKeys keys).pc = s.pc := rfl

theorem State.skipIf_withKeys (c : Bool) : (s.withKeys keys).skipIf c = (s.skipIf c).withKeys keys := by
  cases c <;> rfl

theorem State.push_withKeys (a : Word) : (s.withKeys keys).push a = (s.push a).map (·.withKeys keys) := by
  rcases s.push_cases a with ⟨h, hp⟩ | ⟨h, hp⟩ <;> rw [hp]
  · exact dif_pos h
  · exact dif_neg (Nat.not_lt.2 h)

theorem State.pop_withKeys : (s.withKeys keys).pop = s.pop.map (Prod.map id (·.withKeys keys)) := by
  by_cases h : s.sp = 0
  · simp [State.pop, State.withKeys, h]
  · rw [State.pop_of_sp_ne_zero s h, Option.map_map]
    exact State.pop_of_sp_ne_zero (s.withKeys keys) h

/-! ### Replacing the keypad commutes with every instruction that does not sample it -/

theorem exec_withKeys (i : Instr) (hskp : ∀ x, i ≠ .skp x) (hsknp : ∀ x, i ≠ .sknp x)
    (hwait : ∀ x, i ≠ .ldVxK x) :
    exec i (s.withKeys keys) = onNext (·.withKeys keys) (exec i s) := by
  cases i with
  | skp x => exact absurd rfl (hskp x)
  | sknp x => exact absurd rfl (hsknp x)
  | ldVxK x => exact absurd rfl (hwait x)
  | ret =>
    simp only [exec, execRet, State.pop_withKeys]
    cases s.pop <;> rfl
  | call nnn =>
    simp only [exec, execCall, State.push_withKeys, State.withKeys_pc]
    cases s.push s.pc <;> rfl
  | seImm | sneImm | seReg | sneReg => exact congrArg Host.Outcome.next (State.skipIf_withKeys ..)
  | drw x y n =>
    cases h : s.spriteBytes n with
    | none => rw [exec_drw_of_none h]; exact exec_drw_of_none (s := s.withKeys keys) h
    | some rows => rw [exec_drw_of_some h]; exact exec_drw_of_some (s := s.withKeys keys) h
  | ldBVx x =>
    rcases Nat.lt_or_ge 4095 (s.i.toNat + 2) with h | h
    · rw [exec_ldBVx_of_gt h]; exact exec_ldBVx_of_gt (s := s.withKeys keys) h
    · rw [exec_ldBVx_of_le h]; exact exec_ldBVx_of_le (s := s.withKeys keys) h
  | ldMemVx x =>
    rcases Nat.lt_or_ge 4095 (s.i.toNat + x.val) with h | h
    · rw [exec_ldMemVx_of_gt h]; exact exec_ldMemVx_of_gt (s := s.withKeys keys) h
    · rw [exec_ldMemVx_of_le h]; exact exec_ldMemVx_of_le (s := s.withKeys keys) h
  | ldVxMem x =>
    rcases Nat.lt_or_ge 4095 (s.i.toNat + x.val) with h | h
    · rw [exec_ldVxMem_of_gt h]; exact exec_ldVxMem_of_gt (s := s.withKeys keys) h
    · rw [exec_ldVxMem_of_le h]; exact exec_ldVxMem_of_le (s := s.withKeys keys) h
  | _ => rfl

/-! ### The statement -/

theorem key_eq_of_transact {tr : Transaction} {s t : State} {outs : List Output} (h : transact tr s = .next (t, outs))
    (hne : ∀ index pressed, tr ≠ .keypress index pressed) : t.key = s.key := by
  cases tr with
  | load bytes => cases h; exact State.load_key s bytes
  | tick => exact key_eq_of_step (step_of_transact_tick h).1
  | tickTimers =>
    have hs : s.tickTimers = (t, outs) := Host.Outcome.next.inj h
    simpa [hs] using State.tickTimers_key s
  | getDisplay => cases h; rfl
  | keypress index pressed => exact absurd rfl (hne index pressed)

/-- Settles O37: one equation of `keypress` per case, no other transaction writes KEY, and replacing KEY commutes with
every instruction that does not sample it. -/
theorem keypadIsSetByKeypressAndReadByThree : Obligations.KeypadIsSetByKeypressAndReadByThree := by
  refine ⟨fun s index pressed => ⟨fun hf => ?_, fun hf hgt => ?_, fun hf hlt => ?_⟩,
    fun _ _ _ _ h hne => key_eq_of_transact h hne, fun i s keys => ?_⟩
  · rw [transact, State.keypress_of_faulted pressed hf]
  · rw [transact, State.keypress_of_gt pressed hf hgt]; rfl
  · rw [transact, State.keypress_of_lt pressed hf hlt]; rfl
  · split
    next => trivial
    next => trivial
    next => trivial
    next hskp hsknp hwait => exact exec_withKeys s keys _ hskp hsknp hwait

end Sys2Proof.Machine
end

section
/-! The timer step and the display read (60_exceptions.md R174, R175, R177), and the statements about them. -/

namespace Sys2Proof.Machine

variable {tr : Transaction} {s t : State} {outs : List Output}

/-- The timer step of a machine that is not faulted, in the form the statement uses. -/
theorem transact_tickTimers_of_running (hf : s.fault = none) :
    transact .tickTimers s = .next
      ({ s with dt := BitVec.ofNat 8 (s.dt.toNat - 1), st := BitVec.ofNat 8 (s.st.toNat - 1) },
        if s.st.toNat = 1 then [.soundCue] else []) := by
  simp only [transact, State.tickTimers_of_running hf, State.soundCue_eq_true_iff, ← countDown_eq_ofNat]
  rfl

theorem no_soundCue_of_transact (h : transact tr s = .next (t, outs)) (hne : tr ≠ .tickTimers) :
    Output.soundCue ∉ outs := by
  cases tr with
  | tickTimers => exact absurd rfl hne
  | tick => simp [(step_of_transact_tick h).2]
  | load | keypress | getDisplay => cases h; simp

theorem timers_eq_of_transact (h : transact tr s = .next (t, outs)) (hne : tr ≠ .tickTimers) (htick : tr ≠ .tick) :
    t.dt = s.dt ∧ t.st = s.st := by
  cases tr with
  | tickTimers => exact absurd rfl hne
  | tick => exact absurd rfl htick
  | load | keypress | getDisplay => cases h; simp

/-- Settles O49: one equation of the timer step per case, and outside it only FX15 and FX18 write a timer. -/
theorem timerStepDecrementsBothTimers : Obligations.TimerStepDecrementsBothTimers := by
  refine ⟨fun s hf => ?_, fun _ hf => transact_tickTimers_of_running hf,
    fun _ _ h => ⟨dt_eq_of_step h, st_eq_of_step h⟩,
    fun _ _ _ _ hne h => ⟨no_soundCue_of_transact h hne, timers_eq_of_transact h hne⟩⟩
  rw [transact, State.tickTimers_of_faulted hf]

/-- Settles O50: `get_display` answers its own state, with no look at FAULT. -/
theorem getDisplayReturnsTheBitmap : Obligations.GetDisplayReturnsTheBitmap := fun _ => rfl

end Sys2Proof.Machine
end

section
/-! The decoder against the encoder and against the opcode map (30_encoding.md R80, R81, R86), and the statements about
them. -/

namespace Sys2Proof

open Sys2Proof.Machine Sys2Proof.Claims

variable {w p : Word} {i : Instr} {r : OpcodeRow}

/-! ### Decoding an encoded instruction -/

theorem decode_packXYN_8 (x y : Reg) (n : BitVec 4) : decode (packXYN 0x8 x y n) = decodeAlu x y n := by
  simp [decode]

theorem decode_packXNN_F (x : Reg) (nn : Byte) : decode (packXNN 0xF x nn) = decodeMisc x nn := by
  simp [decode]

theorem decode_encode (i : Instr) : decode (encode i) = some i := by
  cases i with
  | cls | ret => rfl
  | jp | call | ldI | jpV0 => simp [encode, decode]
  | seImm | sneImm | ldImm | addImm | rnd | skp | sknp => simp [encode, decode]
  | seReg | sneReg => simp [encode, decode]
  | drw x y n => exact decode_encode_drw x y n
  | ldReg | orReg | andReg | xorReg | addReg | sub | shr | subn | shl => exact decode_packXYN_8 ..
  | ldVxDt | ldVxK | ldDtVx | ldStVx | addIVx | ldFVx | ldBVx | ldMemVx | ldVxMem => exact decode_packXNN_F ..

theorem decode_of_encode_eq (h : encode i = w) : decode w = some i := h ▸ decode_encode i

theorem decodeBytes_encodeBytes (i : Instr) (rest : List Byte) :
    decodeBytes (encodeBytes i ++ rest) = some (i, rest) := by
  simp [encodeBytes, decodeBytes, decode_encode]

/-- Settles O1: each constructor's word shows the decoder its family and its own fields. -/
theorem decodeOfEncodeIsTheInstruction : Obligations.DecodeOfEncodeIsTheInstruction :=
  fun i _ => ⟨decode_encode i, decodeBytes_encodeBytes i⟩

/-! ### Encoding a decoded word -/

theorem packNNN_of_fieldF {f : BitVec 4} (hF : fieldF w = f) : packNNN f (fieldNNN w) = w :=
  hF ▸ packNNN_fields w

theorem packXNN_of_fields {f : BitVec 4} {nn : Byte} (hF : fieldF w = f) (hNN : fieldNN w = nn) :
    packXNN f (fieldX w) nn = w := hF ▸ hNN ▸ packXNN_fields w

theorem packXYN_of_fields {f n : BitVec 4} (hF : fieldF w = f) (hN : fieldN w = n) :
    packXYN f (fieldX w) (fieldY w) n = w := hF ▸ hN ▸ packXYN_fields w

theorem encode_of_decodeAlu {x y : Reg} {n : BitVec 4} (h : decodeAlu x y n = some i) :
    encode i = packXYN 0x8 x y n := by
  unfold decodeAlu at h
  split at h <;> cases h <;> rfl

theorem encode_of_decodeMisc {x : Reg} {nn : Byte} (h : decodeMisc x nn = some i) :
    encode i = packXNN 0xF x nn := by
  unfold decodeMisc at h
  split at h <;> cases h <;> rfl

theorem encode_of_decode (h : decode w = some i) : encode i = w := by
  unfold decode at h
  dsimp only at h
  split at h
  next => split_ifs at h with hcls hret <;> cases h <;> simp [encode, *]
  next hF => cases h; exact packNNN_of_fieldF hF
  next hF => cases h; exact packNNN_of_fieldF hF
  next hF => cases h; exact packXNN_of_fields hF rfl
  next hF => cases h; exact packXNN_of_fields hF rfl
  next hF => split_ifs at h with hN; cases h; exact packXYN_of_fields hF hN
  next hF => cases h; exact packXNN_of_fields hF rfl
  next hF => cases h; exact packXNN_of_fields hF rfl
  next hF => exact (encode_of_decodeAlu h).trans (packXYN_of_fields hF rfl)
  next hF => split_ifs at h with hN; cases h; exact packXYN_of_fields hF hN
  next hF => cases h; exact packNNN_of_fieldF hF
  next hF => cases h; exact packNNN_of_fieldF hF
  next hF => cases h; exact packXNN_of_fields hF rfl
  next hF => cases h; exact packXYN_of_fields hF (nibble_ofFin _).symm
  next hF => split_ifs at h with hNN hNN <;> cases h <;> exact packXNN_of_fields hF hNN
  next hF => exact (encode_of_decodeMisc h).trans (packXNN_of_fields hF rfl)
  next => cases h

/-- Settles O2: in each family the word is packed from the very fields its instruction carries. -/
theorem encodeOfDecodeIsTheWord : Obligations.EncodeOfDecodeIsTheWord := fun _ _ => encode_of_decode

/-! ### The patterns written out field by field -/

theorem word4_eq_packXYN (f : BitVec 4) (x y : Fin 16) (n : BitVec 4) :
    word4 f (nib x) (nib y) n = packXYN f x y n := by
  simp only [word4, packXYN, nibble_eq_nib]

theorem word4_eq_word2b (a b c d : BitVec 4) : word4 a b c d = word2b a b (c ++ d) := by
  apply BitVec.eq_of_getLsbD_eq
  intro k hk
  simp only [word4, word2b]
  interval_cases k <;> simp only [BitVec.getLsbD_append] <;> simp

theorem word4_eq_packXNN (f : BitVec 4) (x : Fin 16) (c d : BitVec 4) :
    word4 f (nib x) c d = packXNN f x (c ++ d) := by
  rw [word4_eq_word2b, packXNN_eq_word2b]

/-- Settles O3: each pattern is the encoding of its instruction. -/
theorem everyPatternDecodesWithItsFields : Obligations.EveryPatternDecodesWithItsFields := by
  intro x y n nn nnn
  simp only [← packXNN_eq_word2b, word4_eq_packXYN, ← nibble_eq_nib n]
  simp only [word4_eq_packXNN]
  exact ⟨rfl, rfl, decode_encode (.jp nnn), decode_encode (.call nnn), decode_encode (.seImm x nn),
    decode_encode (.sneImm x nn), decode_encode (.seReg x y), decode_encode (.ldImm x nn),
    decode_encode (.addImm x nn), decode_encode (.ldReg x y), decode_encode (.orReg x y),
    decode_encode (.andReg x y), decode_encode (.xorReg x y), decode_encode (.addReg x y),
    decode_encode (.sub x y), decode_encode (.shr x y), decode_encode (.subn x y), decode_encode (.shl x y),
    decode_encode (.sneReg x y), decode_encode (.ldI nnn), decode_encode (.jpV0 nnn), decode_encode (.rnd x nn),
    decode_encode (.drw x y n), decode_encode (.skp x), decode_encode (.sknp x), decode_encode (.ldVxDt x),
    decode_encode (.ldVxK x), decode_encode (.ldDtVx x), decode_encode (.ldStVx x), decode_encode (.addIVx x),
    decode_encode (.ldFVx x), decode_encode (.ldBVx x), decode_encode (.ldMemVx x), decode_encode (.ldVxMem x)⟩

/-! ### The opcode map -/

theorem rowEncoding (i : Instr) : Laws.RowEncoding.Statement i := by
  open Laws.RowEncoding in
  cases i with
  | cls => exact cls
  | ret => exact ret
  | jp => exact jp _
  | call => exact call _
  | seImm => exact seImm ..
  | sneImm => exact sneImm ..
  | seReg => exact seReg ..
  | ldImm => exact ldImm ..
  | addImm => exact addImm ..
  | ldReg => exact ldReg ..
  | orReg => exact orReg ..
  | andReg => exact andReg ..
  | xorReg => exact xorReg ..
  | addReg => exact addReg ..
  | sub => exact sub ..
  | shr => exact shr ..
  | subn => exact subn ..
  | shl => exact shl ..
  | sneReg => exact sneReg ..
  | ldI => exact ldI _
  | jpV0 => exact jpV0 _
  | rnd => exact rnd ..
  | drw => exact drw ..
  | skp => exact skp _
  | sknp => exact sknp _
  | ldVxDt => exact ldVxDt _
  | ldVxK => exact ldVxK _
  | ldDtVx => exact ldDtVx _
  | ldStVx => exact ldStVx _
  | addIVx => exact addIVx _
  | ldFVx => exact ldFVx _
  | ldBVx => exact ldBVx _
  | ldMemVx => exact ldMemVx _
  | ldVxMem => exact ldVxMem _

theorem row_mem_opcodeMap (i : Instr) : i.row ∈ opcodeMap := List.contains_iff_mem.1 (rowEncoding i).1

theorem encode_and_mask (i : Instr) : encode i &&& i.row.mask = i.row.pattern :=
  eq_of_beq (rowEncoding i).2

theorem fieldF_and_F000 (w : Word) : fieldF (w &&& 0xF000) = fieldF w := by
  conv => lhs; rw [← packNNN_fields w]; simp [packNNN_and_F000]

theorem fieldF_and_F00F (w : Word) : fieldF (w &&& 0xF00F) = fieldF w := by
  conv => lhs; rw [← packXYN_fields w]; simp [packXYN_and_F00F]

theorem fieldN_and_F00F (w : Word) : fieldN (w &&& 0xF00F) = fieldN w := by
  conv => lhs; rw [← packXYN_fields w]; simp [packXYN_and_F00F]

theorem fieldF_and_F0FF (w : Word) : fieldF (w &&& 0xF0FF) = fieldF w := by
  conv => lhs; rw [← packXNN_fields w]; simp [packXNN_and_F0FF]

theorem fieldNN_and_F0FF (w : Word) : fieldNN (w &&& 0xF0FF) = fieldNN w := by
  conv => lhs; rw [← packXNN_fields w]; simp [packXNN_and_F0FF]

theorem fieldF_of_and_F000 {f : BitVec 4} (h : w &&& 0xF000 = p) (hp : fieldF p = f) : fieldF w = f := by
  rw [← hp, ← h, fieldF_and_F000]

theorem packXNN_of_and_F0FF {f : BitVec 4} {nn : Byte} (h : w &&& 0xF0FF = p) (hF : fieldF p = f)
    (hNN : fieldNN p = nn) : packXNN f (fieldX w) nn = w := by
  subst h
  exact packXNN_of_fields ((fieldF_and_F0FF w).symm.trans hF) ((fieldNN_and_F0FF w).symm.trans hNN)

theorem packXYN_of_and_F00F {f n : BitVec 4} (h : w &&& 0xF00F = p) (hF : fieldF p = f) (hN : fieldN p = n) :
    packXYN f (fieldX w) (fieldY w) n = w := by
  subst h
  exact packXYN_of_fields ((fieldF_and_F00F w).symm.trans hF) ((fieldN_and_F00F w).symm.trans hN)

theorem encode_of_row_low (hr : r ∈ opcodeRowsLow) (h : w &&& r.mask = r.pattern) :
    ∃ i, encode i = w ∧ i.row = r := by
  simp only [opcodeRowsLow, List.mem_cons, List.not_mem_nil, or_false] at hr
  rcases hr with rfl | rfl | rfl | rfl | rfl | rfl | rfl | rfl | rfl
  · exact ⟨.cls, h.symm.trans BitVec.and_allOnes, rfl⟩
  · exact ⟨.ret, h.symm.trans BitVec.and_allOnes, rfl⟩
  · exact ⟨.jp _, packNNN_of_fieldF (fieldF_of_and_F000 h rfl), rfl⟩
  · exact ⟨.call _, packNNN_of_fieldF (fieldF_of_and_F000 h rfl), rfl⟩
  · exact ⟨.seImm _ _, packXNN_of_fields (fieldF_of_and_F000 h rfl) rfl, rfl⟩
  · exact ⟨.sneImm _ _, packXNN_of_fields (fieldF_of_and_F000 h rfl) rfl, rfl⟩
  · exact ⟨.seReg _ _, packXYN_of_and_F00F h rfl rfl, rfl⟩
  · exact ⟨.ldImm _ _, packXNN_of_fields (fieldF_of_and_F000 h rfl) rfl, rfl⟩
  · exact ⟨.addImm _ _, packXNN_of_fields (fieldF_of_and_F000 h rfl) rfl, rfl⟩

theorem encode_of_row_alu (hr : r ∈ opcodeRowsAlu) (h : w &&& r.mask = r.pattern) :
    ∃ i, encode i = w ∧ i.row = r := by
  simp only [opcodeRowsAlu, List.mem_cons, List.not_mem_nil, or_false] at hr
  rcases hr with rfl | rfl | rfl | rfl | rfl | rfl | rfl | rfl | rfl
  · exact ⟨.ldReg _ _, packXYN_of_and_F00F h rfl rfl, rfl⟩
  · exact ⟨.orReg _ _, packXYN_of_and_F00F h rfl rfl, rfl⟩
  · exact ⟨.andReg _ _, packXYN_of_and_F00F h rfl rfl, rfl⟩
  · exact ⟨.xorReg _ _, packXYN_of_and_F00F h rfl rfl, rfl⟩
  · exact ⟨.addReg _ _, packXYN_of_and_F00F h rfl rfl, rfl⟩
  · exact ⟨.sub _ _, packXYN_of_and_F00F h rfl rfl, rfl⟩
  · exact ⟨.shr _ _, packXYN_of_and_F00F h rfl rfl, rfl⟩
  · exact ⟨.subn _ _, packXYN_of_and_F00F h rfl rfl, rfl⟩
  · exact ⟨.shl _ _, packXYN_of_and_F00F h rfl rfl, rfl⟩

theorem encode_of_row_mid (hr : r ∈ opcodeRowsMid) (h : w &&& r.mask = r.pattern) :
    ∃ i, encode i = w ∧ i.row = r := by
  simp only [opcodeRowsMid, List.mem_cons, List.not_mem_nil, or_false] at hr
  rcases hr with rfl | rfl | rfl | rfl | rfl | rfl | rfl
  · exact ⟨.sneReg _ _, packXYN_of_and_F00F h rfl rfl, rfl⟩
  · exact ⟨.ldI _, packNNN_of_fieldF (fieldF_of_and_F000 h rfl), rfl⟩
  · exact ⟨.jpV0 _, packNNN_of_fieldF (fieldF_of_and_F000 h rfl), rfl⟩
  · exact ⟨.rnd _ _, packXNN_of_fields (fieldF_of_and_F000 h rfl) rfl, rfl⟩
  · exact ⟨.drw _ _ _, packXYN_of_fields (fieldF_of_and_F000 h rfl) (nibble_ofFin _).symm, rfl⟩
  · exact ⟨.skp _, packXNN_of_and_F0FF h rfl rfl, rfl⟩
  · exact ⟨.sknp _, packXNN_of_and_F0FF h rfl rfl, rfl⟩

theorem encode_of_row_high (hr : r ∈ opcodeRowsHigh) (h : w &&& r.mask = r.pattern) :
    ∃ i, encode i = w ∧ i.row = r := by
  simp only [opcodeRowsHigh, List.mem_cons, List.not_mem_nil, or_false] at hr
  rcases hr with rfl | rfl | rfl | rfl | rfl | rfl | rfl | rfl | rfl
  · exact ⟨.ldVxDt _, packXNN_of_and_F0FF h rfl rfl, rfl⟩
  · exact ⟨.ldVxK _, packXNN_of_and_F0FF h rfl rfl, rfl⟩
  · exact ⟨.ldDtVx _, packXNN_of_and_F0FF h rfl rfl, rfl⟩
  · exact ⟨.ldStVx _, packXNN_of_and_F0FF h rfl rfl, rfl⟩
  · exact ⟨.addIVx _, packXNN_of_and_F0FF h rfl rfl, rfl⟩
  · exact ⟨.ldFVx _, packXNN_of_and_F0FF h rfl rfl, rfl⟩
  · exact ⟨.ldBVx _, packXNN_of_and_F0FF h rfl rfl, rfl⟩
  · exact ⟨.ldMemVx _, packXNN_of_and_F0FF h rfl rfl, rfl⟩
  · exact ⟨.ldVxMem _, packXNN_of_and_F0FF h rfl rfl, rfl⟩

/-- A word that selects a row is the encoding of an instruction of that row. -/
theorem encode_of_row (hr : r ∈ opcodeMap) (h : w &&& r.mask = r.pattern) : ∃ i, encode i = w ∧ i.row = r := by
  simp only [opcodeMap, List.mem_append] at hr
  rcases hr with ((hr | hr) | hr) | hr
  · exact encode_of_row_low hr h
  · exact encode_of_row_alu hr h
  · exact encode_of_row_mid hr h
  · exact encode_of_row_high hr h

/-- Two rows that a word selects are the row of the one instruction it decodes to. -/
theorem row_eq_of_selects {r' : OpcodeRow} (hr : r ∈ opcodeMap) (hr' : r' ∈ opcodeMap)
    (h : w &&& r.mask = r.pattern) (h' : w &&& r'.mask = r'.pattern) : r = r' := by
  obtain ⟨i, hi, rfl⟩ := encode_of_row hr h
  obtain ⟨i', hi', rfl⟩ := encode_of_row hr' h'
  have hii' : some i = some i' := (decode_of_encode_eq hi).symm.trans (decode_of_encode_eq hi')
  rw [Option.some.inj hii']

/-- Settles O4: the rows a word selects are those of the instructions it encodes. -/
theorem decodeAcceptsExactlyTheOpcodeMap : Obligations.DecodeAcceptsExactlyTheOpcodeMap := by
  refine fun w => ⟨⟨fun h => ?_, ?_⟩, fun r hr r' hr' => row_eq_of_selects hr hr'⟩
  · obtain ⟨i, hi⟩ := Option.isSome_iff_exists.1 h
    exact ⟨i.row, row_mem_opcodeMap i, encode_of_decode hi ▸ encode_and_mask i⟩
  · rintro ⟨r, hr, h⟩
    obtain ⟨i, hi, -⟩ := encode_of_row hr h
    rw [decode_of_encode_eq hi, Option.isSome_some]

/-! ### Illegal words -/

theorem word4_nibbles (a b c d : BitVec 4) : word4 a b c d = packXYN a b.toFin c.toFin d := by
  simp only [word4, packXYN, nibble_ofFin]

theorem word4_low_byte (a b c d : BitVec 4) : word4 a b c d = packXNN a b.toFin (c ++ d) := by
  rw [word4_eq_word2b, word2b, packXNN, nibble_ofFin]

theorem fieldF_word4 (a b c d : BitVec 4) : fieldF (word4 a b c d) = a := by rw [word4_nibbles, fieldF_packXYN]

theorem fieldN_word4 (a b c d : BitVec 4) : fieldN (word4 a b c d) = d := by rw [word4_nibbles, fieldN_packXYN]

theorem fieldNN_word4 (a b c d : BitVec 4) : fieldNN (word4 a b c d) = c ++ d := by
  rw [word4_low_byte, fieldNN_packXNN]

theorem word4_inj {a b c d a' b' c' d' : BitVec 4} :
    word4 a b c d = word4 a' b' c' d' ↔ a = a' ∧ b = b' ∧ c = c' ∧ d = d' := by
  constructor
  · intro h
    rw [word4_nibbles, word4_nibbles] at h
    have hF := congrArg fieldF h
    have hX := congrArg fieldX h
    have hY := congrArg fieldY h
    have hN := congrArg fieldN h
    simp only [fieldF_packXYN, fieldX_packXYN, fieldY_packXYN, fieldN_packXYN] at hF hX hY hN
    exact ⟨hF, BitVec.toFin_inj.1 hX, BitVec.toFin_inj.1 hY, hN⟩
  · rintro ⟨rfl, rfl, rfl, rfl⟩; rfl

/-- Family 0x8 leaves seven low nibbles unused (R81). -/
theorem decodeAlu_eq_none_iff (x y : Reg) (n : BitVec 4) :
    decodeAlu x y n = none ↔ n ∈ [0x8, 0x9, 0xA, 0xB, 0xC, 0xD, 0xF] := by
  unfold decodeAlu
  split
  case h_10 => refine iff_of_true rfl ?_; revert n; decide
  all_goals simp

theorem decodeMisc_eq_none_iff (x : Reg) (nn : Byte) :
    decodeMisc x nn = none ↔ nn ∉ [0x07#8, 0x0A, 0x15, 0x18, 0x1E, 0x29, 0x33, 0x55, 0x65] := by
  unfold decodeMisc
  split <;> simp_all

/-- Family 0xF, its low byte given as two nibbles (R81). -/
theorem decodeMisc_append_eq_none_iff (x : Reg) (c d : BitVec 4) :
    decodeMisc x (c ++ d) = none ↔ (c, d) ∉ [(0x0, 0x7), (0x0, 0xA), (0x1, 0x5), (0x1, 0x8), (0x1, 0xE), (0x2, 0x9),
      (0x3, 0x3), (0x5, 0x5), (0x6, 0x5)] := by
  rw [decodeMisc_eq_none_iff]
  revert c d; decide

/-- Family 0xE has the two key skips only (R81). -/
theorem append_notMem_keySkips_iff (c d : BitVec 4) :
    (c ++ d ≠ 0x9E#8 ∧ c ++ d ≠ 0xA1#8) ↔ (c, d) ∉ [(0x9, 0xE), (0xA, 0x1)] := by
  revert c d; decide

theorem word4_cls : 0x00E0#16 = word4 0x0 0x0 0xE 0x0 := rfl

theorem word4_ret : 0x00EE#16 = word4 0x0 0x0 0xE 0xE := rfl

/-- Settles O5: family by family, on the first nibble of the word. -/
theorem illegalWordsAreTheListedOnes : Obligations.IllegalWordsAreTheListedOnes := by
  intro a b c d
  rw [← decodeAlu_eq_none_iff b.toFin c.toFin, ← append_notMem_keySkips_iff,
    ← decodeMisc_append_eq_none_iff b.toFin]
  simp only [decode, fieldF_word4, fieldN_word4, fieldNN_word4, word4_cls, word4_ret, word4_inj]
  split
  case h_1 => split_ifs <;> simp <;> tauto
  case h_15 => split_ifs <;> simp_all
  case h_17 => exfalso; revert a; decide
  all_goals simp [word4_nibbles]

/-- Settles O6: each word, legal or not, is decoded by evaluation. -/
theorem sampleWordsDecode : Obligations.SampleWordsDecode := by
  unfold Obligations.SampleWordsDecode
  decide

end Sys2Proof
end


section
/-! What one instruction can change in each part of the state (10_state.md R27 to R32; 20_memory.md R51), that it always
answers, and the statements about one step (30_encoding.md R90 to R92). -/

namespace Sys2Proof.Machine

open Sys2Proof.Claims

variable {i : Instr} {s t : State} {w : Word} {hi lo : Byte}

/-! ### The parts of the state that an instruction without a fault leaves alone -/

/-- FAULT is not written without a fault; I, the stack, memory, the display and the draw counter each have their
writers. -/
structure WritesListedParts (i : Instr) (s t : State) : Prop where
  address : t.i = s.i ∨ (∃ nnn, i = .ldI nnn) ∨ (∃ x, i = .addIVx x) ∨ ∃ x, i = .ldFVx x
  stack : (t.sp = s.sp ∧ t.stack = s.stack) ∨ (∃ nnn, i = .call nnn) ∨ (i = .ret ∧ t.stack = s.stack)
  memory : t.mem = s.mem ∨ (∃ x, i = .ldBVx x) ∨ ∃ x, i = .ldMemVx x
  display : t.disp = s.disp ∨ i = .cls ∨ ∃ x y n, i = .drw x y n
  drawCount : t.draws = s.draws ∨ ∃ x nn, i = .rnd x nn
  fault : t.fault = s.fault

/-- All those parts as before. -/
theorem WritesListedParts.of_eq (haddress : t.i = s.i) (hsp : t.sp = s.sp) (hstack : t.stack = s.stack)
    (hmem : t.mem = s.mem) (hdisp : t.disp = s.disp) (hdraws : t.draws = s.draws) (hfault : t.fault = s.fault) :
    WritesListedParts i s t :=
  ⟨.inl haddress, .inl ⟨hsp, hstack⟩, .inl hmem, .inl hdisp, .inl hdraws, hfault⟩

theorem Executed.writesListedParts (h : Executed i s t) : WritesListedParts i s t := by
  cases i with
  | cls => cases h; exact ⟨.inl rfl, .inl ⟨rfl, rfl⟩, .inl rfl, .inr (.inl rfl), .inl rfl, rfl⟩
  | ret => obtain ⟨_, _, rfl⟩ := h; exact ⟨.inl rfl, .inr (.inr ⟨rfl, rfl⟩), .inl rfl, .inl rfl, .inl rfl, rfl⟩
  | call nnn => obtain ⟨_, rfl⟩ := h; exact ⟨.inl rfl, .inr (.inl ⟨nnn, rfl⟩), .inl rfl, .inl rfl, .inl rfl, rfl⟩
  | ldI | addIVx | ldFVx => cases h; exact ⟨.inr (by simp), .inl ⟨rfl, rfl⟩, .inl rfl, .inl rfl, .inl rfl, rfl⟩
  | rnd x nn => cases h; exact ⟨.inl rfl, .inl ⟨rfl, rfl⟩, .inl rfl, .inl rfl, .inr ⟨x, nn, rfl⟩, rfl⟩
  | drw x y n =>
    obtain ⟨_, _, _, _, rfl⟩ := h
    exact ⟨.inl rfl, .inl ⟨rfl, rfl⟩, .inl rfl, .inr (.inr ⟨x, y, n, rfl⟩), .inl rfl, rfl⟩
  | ldBVx | ldMemVx =>
    obtain ⟨_, rfl⟩ := h
    exact ⟨.inl rfl, .inl ⟨rfl, rfl⟩, .inr (by simp), .inl rfl, .inl rfl, rfl⟩
  | seImm | sneImm | seReg | sneReg => cases h; apply WritesListedParts.of_eq <;> simp
  | skp | sknp => obtain ⟨_, _, rfl⟩ := h; apply WritesListedParts.of_eq <;> simp
  | ldVxK => obtain ⟨_, _, _, rfl⟩ | ⟨_, rfl⟩ := h <;> exact .of_eq rfl rfl rfl rfl rfl rfl rfl
  | ldVxMem => obtain ⟨_, rfl⟩ := h; exact .of_eq rfl rfl rfl rfl rfl rfl rfl
  | _ => cases h; exact .of_eq rfl rfl rfl rfl rfl rfl rfl

/-- Settles O45: an instruction that executes writes the parts it is listed for, and a fault writes none of them. -/
theorem onlyTheListedInstructionsChangeEachPart : Obligations.OnlyTheListedInstructionsChangeEachPart := by
  intro i s t h
  obtain ⟨hkey, hdt, hst⟩ := exec_keepsKeysAndTimers h
  obtain he | ⟨k, -, rfl⟩ := exec_cases i s t h
  · obtain ⟨haddress, hstack, hmem, hdisp, hdraws, -⟩ := he.writesListedParts
    exact ⟨haddress, hstack, hdt, hst, hmem, hdisp, hdraws, hkey⟩
  · exact ⟨.inl rfl, .inl ⟨rfl, rfl⟩, hdt, hst, .inl rfl, .inl rfl, .inl rfl, hkey⟩

/-! ### Faults of the execute phase -/

/-- An instruction that ends with no fault has its effect. -/
theorem executed_of_exec (h : exec i s = .next t) (hf : t.fault = none) : Executed i s t := by
  obtain he | ⟨k, -, rfl⟩ := exec_cases i s t h
  · exact he
  · cases hf

/-- A fault that an instruction raises is its own check's, and it is recorded at PC − 2 with the instruction's word. -/
theorem raised_of_exec (hs : s.fault = none) (h : exec i s = .next t) (hf : t.fault ≠ none) :
    ∃ k, i.ownFault = some k ∧ t = s.raise k i := by
  obtain he | hr := exec_cases i s t h
  · exact absurd (he.writesListedParts.fault.trans hs) hf
  · exact hr

/-- Every instruction has a meaning: none stops the machine or is refused. -/
theorem exec_total (i : Instr) (s : State) : ∃ t, exec i s = .next t := by
  cases i with
  | ret => simp only [exec, execRet]; cases s.pop <;> exact ⟨_, rfl⟩
  | call => simp only [exec, execCall]; cases s.push s.pc <;> exact ⟨_, rfl⟩
  | skp x | sknp x => simp only [exec, execSkp, execSknp, skipOnKey]; cases s.keyAt (s.readV x) <;> exact ⟨_, rfl⟩
  | drw x y n => simp only [exec, execDrw]; cases s.spriteBytes n <;> exact ⟨_, rfl⟩
  | ldVxK => simp only [exec, execLdVxK]; cases s.lowestKey <;> exact ⟨_, rfl⟩
  | ldBVx x => simp only [exec, execLdBVx]; cases s.storeAtI (bcdDigits (s.readV x)) <;> exact ⟨_, rfl⟩
  | ldMemVx x => simp only [exec, execLdMemVx]; cases s.storeAtI (s.regsUpTo x) <;> exact ⟨_, rfl⟩
  | ldVxMem x => simp only [exec, execLdVxMem]; cases s.regBytesAtI x <;> exact ⟨_, rfl⟩
  | _ => exact ⟨_, rfl⟩

/-! ### One step, one equation per outcome of the fetch -/

theorem step_of_faulted (hf : s.fault ≠ none) : step s = .next s := by
  rw [step, State.fetch, if_pos (Option.isSome_iff_ne_none.2 hf)]

theorem step_of_pc_above_4094 (hf : s.fault = none) (hpc : 4094 < s.pc.toNat) :
    step s = .next (s.enterFault .fetchBounds s.pc none) := by
  rw [step, State.fetch_above_4094 hf hpc]

theorem step_of_illegal (hf : s.fault = none) (hw : Memory.readWord s.mem s.pc.toNat = some w)
    (hd : decode w = none) : step s = .next (s.enterFault .decodeFault s.pc (some w)) := by
  simp [step, State.fetch, hf, hw, hd]

theorem Memory.readWord_of_reads {m : Memory} {a : Nat} (hhi : Memory.read m a = some hi)
    (hlo : Memory.read m (a + 1) = some lo) : Memory.readWord m a = some (hi ++ lo) := by
  simp only [Memory.readWord, hhi, hlo, wordOfBytes]

/-- A fault of the execute phase, seen from the state before the step: only FAULT is set, with the word that was
fetched (R90, R91). -/
theorem enterFault_of_exec_after_fetch (hf : s.fault = none) (hd : decode w = some i)
    (h : exec i (s.writePC (s.pc + 2)) = .next t) (ht : t.fault ≠ none) :
    ∃ k, i.ownFault = some k ∧ t = s.enterFault k s.pc (some w) := by
  obtain ⟨k, hk, rfl⟩ := raised_of_exec (s := s.writePC (s.pc + 2)) hf h ht
  exact ⟨k, hk, by rw [State.raise_after_fetch, encode_of_decode hd]⟩

/-- Only RND takes a draw, and it takes one (log entry 3). -/
theorem draws_of_exec_rnd {x : Reg} {nn : Byte} (h : exec (.rnd x nn) s = .next t) : t.draws = s.draws + 1 := by
  cases h; rfl

theorem draws_of_exec (h : exec i s = .next t) (hne : ∀ x nn, i ≠ .rnd x nn) : t.draws = s.draws := by
  obtain he | ⟨_, -, rfl⟩ := exec_cases i s t h
  · exact he.writesListedParts.drawCount.resolve_right fun ⟨x, nn, hi⟩ => hne x nn hi
  · rfl

/-! ### The statements about a step -/

/-- Settles O7: the two bytes at PC are the word that the fetch decodes. -/
theorem stepRunsTheDecodedInstruction : Obligations.StepRunsTheDecodedInstruction :=
  fun _ _ _ _ hf hhi hlo hd _ => step_of_decode hf (Memory.readWord_of_reads hhi hlo) hd

/-- Settles O8: one equation per outcome of the fetch, and a raised fault puts back everything but FAULT. -/
theorem stepIsOneTick : Obligations.StepIsOneTick := by
  refine fun s => ⟨step_of_faulted, step_of_pc_above_4094, fun hi lo hf hhi hlo => ?_⟩
  have hw := Memory.readWord_of_reads hhi hlo
  refine ⟨step_of_illegal hf hw, fun i hd => ⟨step_of_decode hf hw hd, ?_⟩⟩
  obtain ⟨t, ht⟩ := exec_total i (s.writePC (s.pc + 2))
  refine ⟨t, ht, fun hne => ?_, ?_⟩
  · obtain ⟨k, -, rfl⟩ := enterFault_of_exec_after_fetch hf hd ht hne
    exact ⟨k, rfl⟩
  · split
    next => exact (draws_of_exec_rnd ht :)
    next hne => exact (draws_of_exec ht hne :)

/-- Settles O10: the fetch, the decode and the instruction's own check are the only sources of a fault. -/
theorem onlyItsOwnCheckFaultsAnInstruction : Obligations.OnlyItsOwnCheckFaultsAnInstruction := by
  refine ⟨fun i s t r hs h hr => ?_, fun s t r hs h hr => ?_⟩
  · obtain ⟨k, hk, rfl⟩ := raised_of_exec hs h (by simp [hr])
    cases hr
    exact hk
  · obtain ⟨hf, -⟩ | ⟨-, hpc, rfl⟩ | ⟨w, -, hw, hd, rfl⟩ | ⟨w, i, -, hw, hd, hexec⟩ := step_cases s t h
    · exact absurd hs hf
    · cases hr
      exact ⟨rfl, rfl, .inl ⟨hpc, rfl, rfl⟩⟩
    · cases hr
      exact ⟨rfl, rfl, .inr ⟨w, hw, rfl, .inl ⟨hd, rfl⟩⟩⟩
    · obtain ⟨k, hk, rfl⟩ := enterFault_of_exec_after_fetch hs hd hexec (by simp [hr])
      cases hr
      exact ⟨rfl, rfl, .inr ⟨w, hw, rfl, .inr ⟨i, hd, hk⟩⟩⟩

/-! ### Transactions of a machine that answers, and of one that is faulted -/

theorem step_total (s : State) : ∃ t, step s = .next t := by
  unfold step
  cases s.fetch with
  | ends t => exact ⟨t, rfl⟩
  | runs i t => exact exec_total i t

theorem transact_tick_of_step (h : step s = .next t) : transact .tick s = .next (t, []) := by
  simp only [transact, h]

/-- Settles O12: every arm of `exec` answers a next state, and so does everything built on it. -/
theorem everyTransactionAnswersANextState : Obligations.EveryTransactionAnswersANextState := by
  refine ⟨step_total, fun tr s => ?_⟩
  cases tr with
  | tick =>
    obtain ⟨t, ht⟩ := step_total s
    exact ⟨t, [], transact_tick_of_step ht⟩
  | load | tickTimers | getDisplay | keypress => exact ⟨_, _, rfl⟩

theorem State.load_of_faulted {bytes : List Byte} (hf : s.fault ≠ none) : s.load bytes = s :=
  if_pos (Option.isSome_iff_ne_none.2 hf)

/-- A faulted machine answers each transaction with its own state, and shows nothing but its display (R160). -/
theorem transact_of_faulted (tr : Transaction) (hf : s.fault ≠ none) :
    ∃ outs, transact tr s = .next (s, outs) ∧ ∀ o ∈ outs, o = Output.frame s.disp := by
  cases tr with
  | load bytes => exact ⟨[], by rw [transact, State.load_of_faulted hf], by simp⟩
  | tick => exact ⟨[], transact_tick_of_step (step_of_faulted hf), by simp⟩
  | tickTimers => exact ⟨[], by rw [transact, State.tickTimers_of_faulted hf], by simp⟩
  | getDisplay => exact ⟨[.frame s.disp], rfl, by simp⟩
  | keypress index pressed => exact ⟨[], by rw [transact, State.keypress_of_faulted pressed hf], by simp⟩

theorem runTransactions_cons {tr : Transaction} {ts : List Transaction} {u : State} {out outs : List Output}
    (h : transact tr s = .next (t, out)) (hts : runTransactions ts t = .next (u, outs)) :
    runTransactions (tr :: ts) s = .next (u, out ++ outs) := by
  simp only [runTransactions, h, hts]

/-- Settles O11: by induction on the schedule, each transaction leaving the faulted machine as it is. -/
theorem faultedMachineIsHaltedForGood : Obligations.FaultedMachineIsHaltedForGood := by
  intro s ts hf
  induction ts with
  | nil => exact ⟨[], rfl, by simp⟩
  | cons tr ts ih =>
    obtain ⟨out, htr, hout⟩ := transact_of_faulted tr hf
    obtain ⟨outs, hts, houts⟩ := ih
    refine ⟨out ++ outs, runTransactions_cons htr hts, fun o ho => ?_⟩
    exact (List.mem_append.1 ho).elim (hout o) (houts o)

end Sys2Proof.Machine
end


section
/-! PC and the stack: what each instruction leaves in PC (10_state.md R25), and the control flow and skip instructions,
one equation per outcome (40_control_flow.md, 41_conditional_skip.md). -/

namespace Sys2Proof.Machine

open Sys2Proof.Claims

variable {i : Instr} {s t : State} {x : Reg} {k : Fin 16} {nnn : Imm12}

/-! ### Addresses -/

@[simp] theorem immAddr_toNat (nnn : Imm12) : (immAddr nnn).toNat = nnn.toNat := by
  rw [immAddr, BitVec.toNat_setWidth, Nat.mod_eq_of_lt (by omega)]

@[simp] theorem byteToWord_toNat (b : Byte) : (byteToWord b).toNat = b.toNat := by
  rw [byteToWord, BitVec.toNat_setWidth, Nat.mod_eq_of_lt (by omega)]

theorem immAddr_eq_ofNat (nnn : Imm12) : immAddr nnn = BitVec.ofNat 16 nnn.toNat := by
  rw [← immAddr_toNat, BitVec.ofNat_toNat, BitVec.setWidth_eq]

/-- The sum of BNNN is exact: it does not reach 65536 (R107). -/
theorem jumpV0_toNat (nnn : Imm12) (b : Byte) : (immAddr nnn + byteToWord b).toNat = b.toNat + nnn.toNat := by
  rw [BitVec.toNat_add, immAddr_toNat, byteToWord_toNat]
  omega

/-! ### PC after each instruction -/

/-- Settles O16: the effect of each instruction names what it writes to PC, and most leave PC alone. -/
theorem eachInstructionLeavesPCAsListed : Obligations.EachInstructionLeavesPCAsListed := by
  intro i s t _ h ht
  have he := executed_of_exec h ht
  cases i with
  | jp => cases he; exact immAddr_toNat _
  | call => obtain ⟨_, rfl⟩ := he; exact immAddr_toNat _
  | jpV0 nnn => cases he; exact jumpV0_toNat nnn _
  | ret =>
    obtain ⟨hlt, hne, rfl⟩ := he
    exact ⟨⟨_, hlt⟩, by show s.sp.toNat = (s.sp - 1).toNat + 1; bv_omega, rfl⟩
  | seImm | sneImm | seReg | sneReg => cases he; exact State.skipIf_pc ..
  | skp => obtain ⟨k, hk, rfl⟩ := he; exact ⟨k, hk, by rw [State.skipIf_pc, skipped, beq_true]⟩
  | sknp => obtain ⟨k, hk, rfl⟩ := he; exact ⟨k, hk, by rw [State.skipIf_pc, skipped, beq_false]⟩
  | ldVxK =>
    obtain ⟨k, hk, -, rfl⟩ | ⟨hnone, rfl⟩ := he
    · exact (if_pos ⟨k, hk⟩).symm
    · exact (if_neg fun ⟨k, hk⟩ => by simp [hnone k] at hk).symm
  | drw => obtain ⟨_, _, _, _, rfl⟩ := he; rfl
  | ldBVx | ldMemVx | ldVxMem => obtain ⟨_, rfl⟩ := he; rfl
  | _ => cases he; rfl

/-! ### RET and CALL -/

theorem State.pop_of_pos (h : s.sp.toNat = k.val + 1) :
    s.pop = some (s.stack[k], { s with sp := BitVec.ofNat 16 k.val }) := by
  have hne : s.sp ≠ 0 := by rintro h0; simp [h0] at h
  have hk : (s.sp - 1).toNat = k.val := by bv_omega
  have hsp : s.sp - 1 = BitVec.ofNat 16 k.val := by rw [← hk, BitVec.ofNat_toNat, BitVec.setWidth_eq]
  rw [State.pop_of_sp_ne_zero s hne, hk, hsp, Vector.getElem?_eq_getElem k.isLt]
  rfl

theorem exec_ret_of_pos (h : s.sp.toNat = k.val + 1) :
    exec .ret s = .next { s with pc := s.stack[k], sp := BitVec.ofNat 16 k.val } := by
  simp only [exec, execRet, State.pop_of_pos h]
  rfl

theorem exec_ret_of_zero (h : s.sp = 0) : exec .ret s = .next (s.raise .stackUnderflow .ret) := by
  simp [exec, execRet, State.pop, h]

theorem exec_call_of_lt (h : s.sp.toNat = k.val) :
    exec (.call nnn) s = .next { s with
      stack := s.stack.set k.val s.pc k.isLt, sp := s.sp + 1, pc := immAddr nnn } := by
  simp [exec, execCall, State.push, h, State.writePC]

theorem exec_call_of_full (h : s.sp = 16) : exec (.call nnn) s = .next (s.raise .stackOverflow (.call nnn)) := by
  simp [exec, execCall, State.push, h]

/-- Settles O17: a blank display has every pixel false. -/
theorem clsClearsEveryPixel : Obligations.ClsClearsEveryPixel := fun _ => ⟨_, rfl, Display.get_blank, rfl⟩

/-- Settles O18: SP decides between the two equations of RET. -/
theorem retPopsTheReturnAddress : Obligations.RetPopsTheReturnAddress := by
  refine fun s => ⟨fun _ => exec_ret_of_pos, fun h => ?_⟩
  rw [exec_ret_of_zero h, State.raise_eq_faultedBy, encode]

/-- Settles O19: SP decides between the two equations of CALL. -/
theorem callPushesTheReturnAddress : Obligations.CallPushesTheReturnAddress := by
  refine fun s nnn => ⟨fun k h => ?_, fun h => exec_call_of_full h⟩
  have hsp : s.sp + 1 = BitVec.ofNat 16 (k.val + 1) := by
    rw [← h, BitVec.ofNat_add, BitVec.ofNat_toNat, BitVec.setWidth_eq]
    rfl
  rw [exec_call_of_lt h, hsp, immAddr_eq_ofNat]

/-- Settles O20: the slot that the CALL writes is the one below the SP it leaves, which RET reads. -/
theorem retAfterCallReturns : Obligations.RetAfterCallReturns := by
  intro s t u nnn _ h ht hstack hsp
  obtain ⟨hlt, rfl⟩ := executed_of_exec h ht
  have hu : u.sp.toNat = s.sp.toNat + 1 := by rw [hsp]; show (s.sp + 1).toNat = _; bv_omega
  rw [exec_ret_of_pos (k := ⟨s.sp.toNat, hlt⟩) hu, hstack]
  simp

/-! ### Jumps and skips -/

/-- Settles O21: both targets are below 65536, so the 16-bit values are the exact ones. -/
theorem jumpsSetPC : Obligations.JumpsSetPC := by
  refine fun s nnn => ⟨?_, ?_, by omega⟩
  · rw [← immAddr_eq_ofNat]; rfl
  · have hsum : immAddr nnn + byteToWord (s.readV V0) = BitVec.ofNat 16 (s.v[0].toNat + nnn.toNat) := by
      apply BitVec.eq_of_toNat_eq
      rw [jumpV0_toNat, BitVec.toNat_ofNat, Nat.mod_eq_of_lt (by omega)]
      rfl
    rw [← hsum]; rfl

theorem State.skipIf_eq (s : State) (c : Bool) : s.skipIf c = { s with pc := if c then s.pc + 2 else s.pc } := by
  cases c <;> rfl

/-- Settles O22: each skip is `skipIf` of its condition. -/
theorem registerSkipsMovePC : Obligations.RegisterSkipsMovePC := by
  intro s x y nn
  simp [exec, execSeImm, execSneImm, execSeReg, execSneReg, State.skipIf_eq, State.readV]

theorem State.keyAt_of_index {b : Byte} (h : b.toNat = k.val) : s.keyAt b = some s.key[k] := by
  rw [State.keyAt_eq]
  simp [h]

theorem State.keyAt_of_gt {b : Byte} (h : 15 < b.toNat) : s.keyAt b = none := by
  rw [State.keyAt_eq, dif_neg (by omega)]

theorem skipOnKey_of_index {pressed : Bool} (h : (s.readV x).toNat = k.val) :
    skipOnKey x pressed i s = .next (s.skipIf (s.key[k] == pressed)) := by
  simp only [skipOnKey, State.keyAt_of_index h]

theorem skipOnKey_of_gt {pressed : Bool} (h : 15 < (s.readV x).toNat) :
    skipOnKey x pressed i s = .next (s.raise .keyIndex i) := by
  simp only [skipOnKey, State.keyAt_of_gt h]

/-- Settles O23: the bound on Vx decides between a skip on that key and the fault. -/
theorem keySkipsTestTheKey : Obligations.KeySkipsTestTheKey := by
  refine fun s x => ⟨fun k hk => ?_, fun hgt => ?_⟩
  · simp only [exec, execSkp, execSknp, skipOnKey_of_index (s := s) (x := x) hk, State.skipIf_eq]
    cases s.key[k] <;> exact ⟨rfl, rfl⟩
  · simp only [exec, execSkp, execSknp, skipOnKey_of_gt (s := s) (x := x) hgt]
    constructor <;> rw [State.raise_eq_faultedBy_word2b s _ rfl]

end Sys2Proof.Machine
end


section
/-! The invariant `State.Good` (10_state.md R25, R28, R35): it holds at construction, and every step and every other
transaction keeps it. -/

namespace Sys2Proof.Machine

variable {i : Instr} {s t : State} {tr : Transaction} {outs : List Output}

/-! ### Fault records -/

theorem ownFault_hasNoWord {k : Fault} (h : i.ownFault = some k) : k.hasNoWord = false := by
  cases i <;> cases h <;> rfl

theorem FaultRecord.fits_of_word {k : Fault} (hk : k.hasNoWord = false) (pc w : Word) :
    FaultRecord.fits ⟨k, pc, some w⟩ pc := by
  refine ⟨by simp [hk], (if_neg ?_).symm⟩
  rintro rfl
  cases hk

theorem State.Good.enterFault {k : Fault} {a : Word} {w : Option Word} (h : s.Good)
    (hfits : FaultRecord.fits ⟨k, a, w⟩ s.pc) : (s.enterFault k a w).Good where
  memCanonical := h.memCanonical
  spInRange := h.spInRange
  pcInRange := h.pcInRange
  returnsInRange := h.returnsInRange
  faultFits := by rintro _ ⟨⟩; exact hfits

/-! ### The execute phase -/

/-- A state in which a legal word of a good machine is executed: PC has been moved past the word (R24). -/
structure State.Executing (s : State) : Prop where
  memCanonical : Memory.wf s.mem = true
  spInRange : s.sp.toNat ≤ 16
  pcPastWord : 2 ≤ s.pc.toNat
  pcInMemory : s.pc.toNat ≤ 4096
  returnsInRange : ∀ k : Fin 16, s.stack[k].toNat ≤ 4096
  running : s.fault = none

theorem State.Good.executing (h : s.Good) (hf : s.fault = none) (hpc : s.pc.toNat ≤ 4094) :
    (s.writePC (s.pc + 2)).Executing where
  memCanonical := h.memCanonical
  spInRange := h.spInRange
  pcPastWord := by rw [State.writePC_pc, toNat_add_two_of_le_4094 hpc]; omega
  pcInMemory := by rw [State.writePC_pc, toNat_add_two_of_le_4094 hpc]; omega
  returnsInRange := h.returnsInRange
  running := hf

namespace State.Executing

variable (hs : s.Executing) (he : Executed i s t)
include hs he

theorem fault_eq_none : t.fault = none := he.writesListedParts.fault.trans hs.running

/-- A store that executes was checked against the bound, so it writes inside memory. -/
theorem memCanonical_after : Memory.wf t.mem = true := by
  obtain hmem | ⟨x, rfl⟩ | ⟨x, rfl⟩ := he.writesListedParts.memory
  · exact hmem ▸ hs.memCanonical
  · obtain ⟨hle, rfl⟩ := he
    exact Memory.wf_fill hs.memCanonical (by rw [bcdDigits_length]; omega)
  · obtain ⟨hle, rfl⟩ := he
    exact Memory.wf_fill hs.memCanonical (by rw [State.regsUpTo_length]; omega)

theorem spInRange_after : t.sp.toNat ≤ 16 := by
  obtain ⟨hsp, -⟩ | ⟨nnn, rfl⟩ | ⟨rfl, -⟩ := he.writesListedParts.stack
  · exact hsp ▸ hs.spInRange
  · obtain ⟨hlt, rfl⟩ := he
    show (s.sp + 1).toNat ≤ 16
    bv_omega
  · obtain ⟨hlt, -, rfl⟩ := he
    exact Nat.le_of_lt hlt

/-- CALL pushes the PC it executes with, which is in memory or just past it. -/
theorem returnsInRange_after (k : Fin 16) : t.stack[k].toNat ≤ 4096 := by
  obtain ⟨-, hstack⟩ | ⟨nnn, rfl⟩ | ⟨-, hstack⟩ := he.writesListedParts.stack
  · exact hstack ▸ hs.returnsInRange k
  · obtain ⟨hlt, rfl⟩ := he
    show ((s.stack.set s.sp.toNat s.pc hlt)[k.val]).toNat ≤ 4096
    rw [Vector.getElem_set]
    split
    · exact hs.pcInMemory
    · exact hs.returnsInRange k
  · exact hstack ▸ hs.returnsInRange k

omit he in
theorem skipped_le (c : Bool) : (Claims.skipped s.pc c).toNat ≤ 0x10FE := by
  have hpc := hs.pcInMemory
  have hlo := hs.pcPastWord
  cases c
  · exact hpc.trans (by decide)
  · show (s.pc + 2).toNat ≤ 0x10FE
    bv_omega

/-- The highest target is that of BNNN, 4095 + 255 (R25). -/
theorem pcInRange_after (h : exec i s = .next t) : t.pc.toNat ≤ 0x10FE := by
  have hpc := hs.pcInMemory
  have hlo := hs.pcPastWord
  have hlisted := eachInstructionLeavesPCAsListed i s t hs.running h (hs.fault_eq_none he)
  cases i with
  | jp | call | jpV0 => dsimp only at hlisted; omega
  | ret =>
    obtain ⟨k, -, hk⟩ := hlisted
    rw [hk]
    exact (hs.returnsInRange k).trans (by decide)
  | seImm | sneImm | seReg | sneReg => exact hlisted ▸ hs.skipped_le _
  | skp | sknp => obtain ⟨k, -, hk⟩ := hlisted; exact hk ▸ hs.skipped_le _
  | ldVxK =>
    rw [hlisted]
    split
    · omega
    · bv_omega
  | _ => rw [hlisted]; omega

theorem good_after (h : exec i s = .next t) : t.Good where
  memCanonical := hs.memCanonical_after he
  spInRange := hs.spInRange_after he
  pcInRange := hs.pcInRange_after he h
  returnsInRange := hs.returnsInRange_after he
  faultFits := by simp [hs.fault_eq_none he]

end State.Executing

/-! ### One step -/

theorem step_keeps_good (hs : s.Good) (h : step s = .next t) : t.Good := by
  obtain ⟨-, rfl⟩ | ⟨hf, -, rfl⟩ | ⟨w, hf, -, -, rfl⟩ | ⟨w, i, hf, hw, hd, hexec⟩ := step_cases s t h
  · exact hs
  · exact hs.enterFault ⟨by simp [Fault.hasNoWord], rfl⟩
  · exact hs.enterFault (FaultRecord.fits_of_word rfl _ _)
  · have hpc : s.pc.toNat ≤ 4094 := by
      rw [Memory.readWord_eq] at hw
      by_contra hgt
      simp [hgt] at hw
    obtain he | ⟨k, hk, rfl⟩ := exec_cases i _ t hexec
    · exact (hs.executing hf hpc).good_after he hexec
    · rw [State.raise_after_fetch]
      exact hs.enterFault (FaultRecord.fits_of_word (ownFault_hasNoWord hk) _ _)

/-- Settles O14: the two faults of the fetch fit their record, and an instruction executes in a state past its word. -/
theorem stepKeepsTheStateGood : Obligations.StepKeepsTheStateGood := fun _ _ => step_keeps_good

/-! ### Construction and the other transactions -/

/-- Settles O13: every bound holds of zero and of PC = 0x200. -/
theorem resetIsGood : Obligations.ResetIsGood where
  memCanonical := Memory.wf_reset
  spInRange := by decide
  pcInRange := by decide
  returnsInRange := by decide
  faultFits := by rintro _ ⟨⟩

theorem Memory.wf_fill_glyphs (c : Construction) : Memory.wf (Memory.fill [] 0 c.glyphs.toList) = true :=
  Memory.wf_fill rfl (by rw [Vector.length_toList]; decide)

theorem State.construct_good (c : Construction) : (State.construct c).Good where
  memCanonical := Memory.wf_fill (Memory.wf_fill_glyphs c) (by rw [Vector.length_toList]; decide)
  spInRange := resetIsGood.spInRange
  pcInRange := resetIsGood.pcInRange
  returnsInRange := resetIsGood.returnsInRange
  faultFits := resetIsGood.faultFits

/-- A running machine stays good when only memory, the timers and the keys change. -/
theorem State.Good.of_eq (h : s.Good) (hmem : Memory.wf t.mem = true) (hsp : t.sp = s.sp) (hpc : t.pc = s.pc)
    (hstack : t.stack = s.stack) (hfault : t.fault = s.fault) : t.Good where
  memCanonical := hmem
  spInRange := hsp ▸ h.spInRange
  pcInRange := hpc ▸ h.pcInRange
  returnsInRange := hstack ▸ h.returnsInRange
  faultFits := hpc ▸ hfault ▸ h.faultFits

theorem State.load_good (h : s.Good) (bytes : List Byte) : (s.load bytes).Good := by
  unfold State.load
  split_ifs with hf hlen
  · exact h
  · exact h.of_eq (Memory.wf_fill h.memCanonical (Nat.add_le_add_left hlen 0x200)) rfl rfl rfl rfl
  · exact h.enterFault ⟨by simp [Fault.hasNoWord], rfl⟩

theorem State.tickTimers_good (h : s.Good) : s.tickTimers.1.Good := by
  unfold State.tickTimers
  split_ifs
  · exact h
  · exact h.of_eq h.memCanonical rfl rfl rfl rfl
  · exact h.of_eq h.memCanonical rfl rfl rfl rfl

theorem State.keypress_good (h : s.Good) (index : Nat) (pressed : Bool) : (s.keypress index pressed).Good := by
  unfold State.keypress
  split_ifs
  · exact h
  · exact h.of_eq h.memCanonical rfl rfl rfl rfl
  · exact h.enterFault ⟨by simp [Fault.hasNoWord], rfl⟩

theorem transact_keeps_good (h : s.Good) (htr : transact tr s = .next (t, outs)) : t.Good := by
  cases tr with
  | load bytes => cases htr; exact State.load_good h bytes
  | tick => exact step_keeps_good h (step_of_transact_tick htr).1
  | tickTimers =>
    have hs : s.tickTimers = (t, outs) := Host.Outcome.next.inj htr
    simpa [hs] using State.tickTimers_good h
  | getDisplay => cases htr; exact h
  | keypress index pressed => cases htr; exact State.keypress_good h index pressed

/-- A schedule that answers performs its first transaction, and then the others. -/
theorem runTransactions_cons_cases {ts : List Transaction} (h : runTransactions (tr :: ts) s = .next (t, outs)) :
    ∃ u out outs', transact tr s = .next (u, out) ∧ runTransactions ts u = .next (t, outs') := by
  simp only [runTransactions] at h
  split at h
  next u out htr =>
    split at h
    next hts => cases h; exact ⟨u, out, _, htr, hts⟩
    all_goals cases h
  all_goals cases h

theorem runTransactions_keeps_good {ts : List Transaction} (h : s.Good)
    (hts : runTransactions ts s = .next (t, outs)) : t.Good := by
  induction ts generalizing s outs with
  | nil => cases hts; exact h
  | cons tr ts ih =>
    obtain ⟨u, out, outs', htr, hrest⟩ := runTransactions_cons_cases hts
    exact ih (transact_keeps_good h htr) hrest

/-- Settles O15: by induction on the schedule, from a good construction. -/
theorem everyReachedStateIsGood : Obligations.EveryReachedStateIsGood :=
  fun _ ⟨c, _, _, hts⟩ => runTransactions_keeps_good (State.construct_good c) hts

end Sys2Proof.Machine
end


section
/-! Registers, I and the timers: one equation per instruction in the form of the statements (42_register_immediate.md to
45_random.md, 47_timer_transfer.md), and VF after each flag-writing instruction (10_state.md R26). -/

namespace Sys2Proof.Machine

open Sys2Proof.Claims

/-! ### Arithmetic of bytes, as natural numbers -/

theorem sum8_eq_ofNat (a b : Byte) : sum8 a b = BitVec.ofNat 8 ((a.toNat + b.toNat) % 256) := by
  apply BitVec.eq_of_toNat_eq
  simp [sum8]

theorem diff8_eq_ofNat (a b : Byte) : diff8 a b = BitVec.ofNat 8 ((a.toNat + 256 - b.toNat) % 256) := by
  apply BitVec.eq_of_toNat_eq
  simp only [diff8, BitVec.toNat_sub, BitVec.toNat_ofNat]
  omega

theorem shr8_eq_ofNat (a : Byte) : shr8 a = BitVec.ofNat 8 (a.toNat / 2) := by
  apply BitVec.eq_of_toNat_eq
  simp only [shr8, BitVec.toNat_ushiftRight, BitVec.toNat_ofNat, Nat.shiftRight_one]
  omega

theorem shl8_eq_ofNat (a : Byte) : shl8 a = BitVec.ofNat 8 (a.toNat * 2 % 256) := by
  apply BitVec.eq_of_toNat_eq
  simp only [shl8, BitVec.toNat_shiftLeft, BitVec.toNat_ofNat]
  omega

theorem flagByte_eq_ite (b : Bool) : flagByte b = if b = true then 1 else 0 := by cases b <;> rfl

theorem carryFlag_eq_ite (a b : Byte) : carryFlag a b = if a.toNat + b.toNat > 255 then 1 else 0 := by
  simp only [carryFlag, flagByte_eq_ite, decide_eq_true_eq]

theorem noBorrowFlag_eq_ite (a b : Byte) : noBorrowFlag a b = if a.toNat ≥ b.toNat then 1 else 0 := by
  simp only [noBorrowFlag, flagByte_eq_ite, decide_eq_true_eq]

theorem shrFlag_eq_ofNat (a : Byte) : shrFlag a = BitVec.ofNat 8 (a.toNat % 2) := by
  revert a; decide

theorem shlFlag_eq_ofNat (a : Byte) : shlFlag a = BitVec.ofNat 8 (a.toNat / 128) := by
  revert a; decide

/-! ### The statements about registers, I and the timers -/

/-- Settles O24: both are one write of Vx. -/
theorem immediatesWriteVxOnly : Obligations.ImmediatesWriteVxOnly :=
  fun s x nn => ⟨rfl, by rw [← sum8_eq_ofNat]; rfl⟩

/-- Settles O25: each result is the operation bit by bit, and writing Vx leaves the other registers. -/
theorem copyAndLogicWriteVxOnly : Obligations.CopyAndLogicWriteVxOnly := by
  intro s x y i f hif
  have hother : ∀ (b : Byte) (r : Reg), r ≠ x → (s.writeV x b).v[r] = s.v[r] := fun b r hr =>
    (s.readV_writeV x r b).trans (if_neg hr)
  have hself : ∀ b : Byte, (s.writeV x b).v[x] = b := fun b => (s.readV_writeV x x b).trans (if_pos rfl)
  simp only [List.mem_cons, List.not_mem_nil, or_false, Prod.mk.injEq] at hif
  obtain ⟨rfl, rfl⟩ | ⟨rfl, rfl⟩ | ⟨rfl, rfl⟩ | ⟨rfl, rfl⟩ := hif
  all_goals refine ⟨_, rfl, fun k hk => ?_, hother _, rfl⟩; rw [hself]
  · rfl
  · exact BitVec.getLsbD_or
  · exact BitVec.getLsbD_and
  · exact BitVec.getLsbD_xor

/-- Settles O26: the sum is written first and the carry to VF last. -/
theorem addWritesSumAndCarry : Obligations.AddWritesSumAndCarry := by
  intro s x y
  rw [← sum8_eq_ofNat, ← carryFlag_eq_ite]
  rfl

/-- Settles O27: the difference is written first and no-borrow to VF last. -/
theorem subtractionsWriteDifferenceAndNoBorrow : Obligations.SubtractionsWriteDifferenceAndNoBorrow := by
  intro s x y
  rw [← diff8_eq_ofNat, ← diff8_eq_ofNat, ← noBorrowFlag_eq_ite, ← noBorrowFlag_eq_ite]
  exact ⟨rfl, rfl⟩

/-- Settles O28: Vx is shifted in place, y unread, and the bit shifted out goes to VF last. -/
theorem shiftsWriteResultAndBitShiftedOut : Obligations.ShiftsWriteResultAndBitShiftedOut := by
  intro s x y
  rw [← shr8_eq_ofNat, ← shrFlag_eq_ofNat, ← shl8_eq_ofNat, ← shlFlag_eq_ofNat]
  exact ⟨rfl, rfl⟩

theorem add_byteToWord_eq_ofNat (a : Word) (b : Byte) :
    a + byteToWord b = BitVec.ofNat 16 ((a.toNat + b.toNat) % 65536) := by
  apply BitVec.eq_of_toNat_eq
  simp

/-- Settles O30: each is one write of I. -/
theorem addressRegisterInstructionsWriteIOnly : Obligations.AddressRegisterInstructionsWriteIOnly := by
  intro s x nnn
  rw [← immAddr_eq_ofNat, ← add_byteToWord_eq_ofNat]
  exact ⟨rfl, rfl, rfl⟩

theorem exec_rnd (s : State) (x : Reg) (nn : Byte) :
    exec (.rnd x nn) s =
      .next { s with v := s.v.set x (Config.randomByte s.draws &&& nn), draws := s.draws + 1 } := rfl

/-- Settles O31: the two masks are the zero and the unit of AND. -/
theorem rndMasksTheDraw : Obligations.RndMasksTheDraw := by
  intro s x nn
  refine ⟨exec_rnd s x nn, ?_, ?_⟩
  · rw [exec_rnd, show (0x00 : Byte) = 0#8 from rfl, BitVec.and_zero]
  · rw [exec_rnd, show (0xFF : Byte) = BitVec.allOnes 8 from rfl, BitVec.and_allOnes]

/-- Settles O32: each is one write of its destination. -/
theorem timerTransfersCopyTheByte : Obligations.TimerTransfersCopyTheByte :=
  fun _ _ => ⟨rfl, rfl, rfl⟩

/-! ### VF -/

/-- A draw collides iff some pixel goes from lit to unlit. -/
theorem Draw.Inverted.collided_iff {hit : Fin Config.dispSize → Prop} {d : Display} {a : Draw}
    (h : Draw.Inverted hit ⟨d, false⟩ a) :
    a.collided = true ↔ ∃ p, d.get p = true ∧ a.disp.get p = false := by
  obtain ⟨hpixels, hcollided⟩ := h
  rw [hcollided, or_iff_right Bool.false_ne_true]
  refine exists_congr fun p => and_congr_right fun hp => ?_
  have hp' := hpixels p
  rw [← Bool.not_eq_true, hp']
  simp [hp]

/-- Settles O29: the flag is the last write, so it is what VF holds; a draw's is the collision, a pixel turned off. -/
theorem flagAfterEachFlagWritingInstruction : Obligations.FlagAfterEachFlagWritingInstruction := by
  refine ⟨fun s x y => ⟨?_, ?_, ?_, ?_, ?_⟩, fun s t x y n _ h ht => ?_, rfl⟩
  · exact ⟨_, rfl, (State.writeV_VF_get ..).trans (carryFlag_eq_ite ..)⟩
  · exact ⟨_, rfl, (State.writeV_VF_get ..).trans (noBorrowFlag_eq_ite ..)⟩
  · exact ⟨_, rfl, (State.writeV_VF_get ..).trans (noBorrowFlag_eq_ite ..)⟩
  · exact ⟨_, rfl, (State.writeV_VF_get ..).trans (flagByte_eq_ite _)⟩
  · exact ⟨_, rfl, (State.writeV_VF_get ..).trans (flagByte_eq_ite _)⟩
  · obtain ⟨rows, hrows, a, rfl, rfl⟩ := executed_of_exec h ht
    rw [State.writeV_VF_get]
    refine ⟨flagByte_eq_zero_or_one _, (flagByte_eq_one_iff _).trans ?_⟩
    exact (State.drawn_inverted hrows).collided_iff

end Sys2Proof.Machine
end


section
/-! Drawing the same sprite twice (46_draw.md R145; 95_test_vectors.md S4): the second draw inverts the
same pixels again. -/

namespace Sys2Proof.Machine

open Sys2Proof.Claims

variable {s : State} {x y : Reg} {n : RowCount} {hit : Fin Config.dispSize → Prop} {a b : Draw}

theorem Draw.Inverted.disp_of_twice {c d : Draw} (h : Draw.Inverted hit a b)
    (h' : Draw.Inverted hit c d) (hc : c.disp = b.disp) : d.disp = a.disp := by
  apply Display.ext_get
  intro p
  have hb := h.1 p
  have hd := h'.1 p
  rw [hc] at hd
  rw [Bool.eq_iff_iff]
  tauto

/-- On a clear display the drawn pixels are the covered ones. -/
theorem Draw.Inverted.lit_iff_of_clear (h : Draw.Inverted hit a b) (hclear : ∀ p, a.disp.get p = false)
    (p : Fin Config.dispSize) : b.disp.get p = true ↔ hit p := by
  rw [h.1 p, hclear p]
  simp

theorem exists_bit_of_ne_zero {b : Byte} (hb : b ≠ 0) : ∃ k < 8, b.getLsbD k = true := by
  by_contra hnone
  push Not at hnone
  refine hb (BitVec.eq_of_getLsbD_eq fun k hk => ?_)
  simpa using hnone k hk

/-- A sprite covers some pixel iff one of its rows has a set bit. -/
theorem exists_covers_iff (cx cy m : Nat) :
    (∃ p, Covers s cx cy m p) ↔ ∃ row b, row < m ∧ Memory.read s.mem (s.i.toNat + row) = some b ∧ b ≠ 0 := by
  constructor
  · rintro ⟨p, row, col, b, hrow, -, hread, hbit, -⟩
    refine ⟨row, b, hrow, hread, ?_⟩
    rintro rfl
    simp at hbit
  · rintro ⟨row, b, hrow, hread, hb⟩
    obtain ⟨k, hk, hbit⟩ := exists_bit_of_ne_zero hb
    refine ⟨pixelIndex (cx + (7 - k)) (cy + row), row, 7 - k, b, hrow, by omega, hread, ?_, pixelIndex_val ..⟩
    rwa [show 7 - (7 - k) = k by omega]

/-- The state that DRW leaves when the sprite's rows are read. -/
def State.afterDraw (s : State) (x y : Reg) (rows : List Byte) : State :=
  (s.writeDisp (s.drawn x y rows).disp).writeV VF (flagByte (s.drawn x y rows).collided)

theorem State.afterDraw_VF (s : State) (x y : Reg) (rows : List Byte) :
    (s.afterDraw x y rows).v[15] = flagByte (s.drawn x y rows).collided := State.writeV_VF_get ..

theorem State.readV_afterDraw (hx : x ≠ 15) (s : State) (x' y : Reg) (rows : List Byte) :
    (s.afterDraw x' y rows).readV x = s.readV x := by
  rw [State.afterDraw, State.readV_writeV, if_neg hx, State.readV_writeDisp]

/-- With VF no coordinate, the second draw covers the same pixels. -/
theorem State.drawn_afterDraw_inverted {rows : List Byte} (hx : x ≠ 15) (hy : y ≠ 15)
    (hrows : s.spriteBytes n = some rows) :
    Draw.Inverted (Covers s (s.readV x).toNat (s.readV y).toNat n.val) ⟨(s.drawn x y rows).disp, false⟩
      ((s.afterDraw x y rows).drawn x y rows) := by
  have h := State.drawn_inverted (s := s.afterDraw x y rows) (x := x) (y := y) hrows
  rw [State.readV_afterDraw hx, State.readV_afterDraw hy] at h
  exact h

/-- Settles O34: both draws invert the same pixels, and on a clear display the second finds lit all that it covers. -/
theorem drawingTwiceRestoresTheDisplay : Obligations.DrawingTwiceRestoresTheDisplay := by
  intro s t u x y n hx hy hs h ht h'
  obtain ⟨rows, hrows, a, rfl, rfl⟩ := executed_of_exec h ht
  change exec (.drw x y n) (s.afterDraw x y rows) = .next u at h'
  have hrows' : (s.afterDraw x y rows).spriteBytes n = some rows := hrows
  rw [exec_drw_of_some hrows'] at h'
  cases h'
  have hfirst := State.drawn_inverted (x := x) (y := y) hrows
  have hsecond := State.drawn_afterDraw_inverted hx hy hrows
  refine ⟨hfirst.disp_of_twice hsecond rfl, hs, fun hclear => ⟨?_, ?_⟩⟩
  · show (s.afterDraw x y rows).v[15] = 0
    have hnone : (s.drawn x y rows).collided = false := by
      rw [Bool.eq_false_iff, Ne, hfirst.2]
      simp [hclear]
    rw [State.afterDraw_VF, hnone, flagByte_false]
  · show ((s.afterDraw x y rows).afterDraw x y rows).v[15] = 1 ↔ _
    rw [State.afterDraw_VF, flagByte_eq_one_iff, hsecond.2, or_iff_right Bool.false_ne_true, ← exists_covers_iff]
    exact exists_congr fun p => and_iff_right_of_imp (hfirst.lit_iff_of_clear hclear p).2

end Sys2Proof.Machine
end


section
/-! Memory as data and as it is read back: the canonical form is determined by the bytes (20_memory.md R50), a load
reads what a dump stored (49_memory_block.md), and so does the next fetch (20_memory.md R64). -/

namespace Sys2Proof.Machine

variable {m m' : Memory} {a lo : Nat} {b : Byte} {s t : State} {x k : Reg}

/-! ### The canonical form is determined by the bytes -/

theorem Memory.byteAt_of_read (h : Memory.read m a = some b) : Memory.byteAt m a = b := by
  unfold Memory.read at h
  split at h <;> cases h
  rfl

/-- A canonical list holds no address outside memory. -/
theorem Memory.byteAt_of_ge (h : Memory.wfFrom lo m = true) (ha : 4096 ≤ a) :
    Memory.byteAt m a = Memory.initial a := by
  induction m generalizing lo with
  | nil => rfl
  | cons c m ih =>
    obtain ⟨k, c⟩ := c
    obtain ⟨-, hk, -, hm⟩ := Memory.wfFrom_cons.1 h
    rw [Memory.byteAt, if_neg (by omega)]
    exact ih hm

/-- The first listed address is one whose byte is not as at construction. -/
theorem Memory.byteAt_head_ne_initial {c : Byte} (h : Memory.wfFrom lo ((a, c) :: m) = true) :
    Memory.byteAt ((a, c) :: m) a ≠ Memory.initial a := by
  rw [Memory.byteAt, if_pos rfl]
  exact (Memory.wfFrom_cons.1 h).2.2.1

/-- Where two canonical lists hold the same bytes, neither begins below the other. -/
theorem Memory.head_le_of_byteAt_eq {k k' : Nat} {c c' : Byte} (h : Memory.wfFrom lo ((k, c) :: m) = true)
    (h' : Memory.wfFrom lo ((k', c') :: m') = true)
    (hb : ∀ a, Memory.byteAt ((k, c) :: m) a = Memory.byteAt ((k', c') :: m') a) : k' ≤ k := by
  obtain ⟨-, hk', hc', hm'⟩ := Memory.wfFrom_cons.1 h'
  by_contra hlt
  refine Memory.byteAt_head_ne_initial h ((hb k).trans (Memory.byteAt_below (lo := k') ?_ (by omega)))
  exact Memory.wfFrom_cons.2 ⟨le_rfl, hk', hc', hm'⟩

theorem Memory.eq_of_byteAt_eq (h : Memory.wfFrom lo m = true) (h' : Memory.wfFrom lo m' = true)
    (hb : ∀ a, Memory.byteAt m a = Memory.byteAt m' a) : m = m' := by
  induction m generalizing lo m' with
  | nil =>
    cases m' with
    | nil => rfl
    | cons c' m' => exact absurd (hb c'.1).symm (Memory.byteAt_head_ne_initial h')
  | cons c m ih =>
    cases m' with
    | nil => exact absurd (hb c.1) (Memory.byteAt_head_ne_initial h)
    | cons c' m' =>
      obtain ⟨k, c⟩ := c
      obtain ⟨k', c'⟩ := c'
      obtain rfl : k = k' := le_antisymm (Memory.head_le_of_byteAt_eq h' h fun a => (hb a).symm)
        (Memory.head_le_of_byteAt_eq h h' hb)
      obtain rfl : c = c' := by simpa [Memory.byteAt] using hb k
      obtain ⟨-, -, -, hm⟩ := Memory.wfFrom_cons.1 h
      obtain ⟨-, -, -, hm'⟩ := Memory.wfFrom_cons.1 h'
      rw [ih hm hm' fun a => ?_]
      rcases Nat.lt_or_ge k a with ha | ha
      · simpa [Memory.byteAt, show a ≠ k by omega] using hb a
      · rw [Memory.byteAt_below hm (by omega), Memory.byteAt_below hm' (by omega)]

/-- Settles O43: by induction along both lists, whose first addresses agree. -/
theorem canonicalMemoriesAreEqualData : Obligations.CanonicalMemoriesAreEqualData := by
  intro m m' h h' hread
  refine Memory.eq_of_byteAt_eq h h' fun a => ?_
  rcases Nat.lt_or_ge a 4096 with ha | ha
  · exact Memory.byteAt_of_read ((hread a).trans (Memory.read_of_lt ha))
  · rw [Memory.byteAt_of_ge h ha, Memory.byteAt_of_ge h' ha]

/-! ### Reading back what FX55 stored -/

/-- A dump that executes leaves each of V0..Vx at its place from I on. -/
theorem Executed.read_dumped (hm : Memory.wf s.mem = true) (h : Executed (.ldMemVx x) s t) (hk : k ≤ x) :
    Memory.read t.mem (s.i.toNat + k.val) = some s.v[k] := by
  obtain ⟨hle, rfl⟩ := h
  exact Memory.read_fill_of_getElem? hm (by rw [State.regsUpTo_length]; omega) (State.regsUpTo_getElem? hk)

/-- Settles O41: the load reads from the same I the bytes that the dump stored. -/
theorem loadAfterDumpRestores : Obligations.LoadAfterDumpRestores := by
  intro s t u w x hm _ h ht hmem hi hload k hk
  have hdump := executed_of_exec h ht
  have hread := hdump.read_dumped hm hk
  obtain ⟨hle, rfl⟩ := hdump
  rw [exec_ldVxMem_of_le (by rw [hi]; exact hle)] at hload
  cases hload
  rw [State.loadRegs_bytesUpTo_of_le hk, hmem, hi]
  exact Memory.byteAt_of_read hread

/-- Settles O42: V0 and V1 stand at PC and PC + 1, so they are the word that the next fetch reads. -/
theorem nextStepRunsTheStoredWord : Obligations.NextStepRunsTheStoredWord := by
  intro s t x i hm hs hx hi h ht hd
  have hdump := executed_of_exec h ht
  have hpc : t.pc = s.pc := by obtain ⟨-, rfl⟩ := hdump; rfl
  have hhi := hdump.read_dumped hm (k := 0) (Fin.zero_le _)
  have hlo := hdump.read_dumped hm (k := 1) (Fin.le_def.2 hx)
  rw [hi, ← hpc] at hhi hlo
  exact step_of_decode ht (Memory.readWord_of_reads hhi hlo) hd

end Sys2Proof.Machine
end


section
/-! The host's side (20_memory.md R55, R56; 10_state.md R34, R38; 70_reset_and_hazards.md R188, R194): `load`, the
construction state, the placed word and the end of a run. -/

namespace Sys2Proof.Machine

open Sys2Proof.Claims

variable {s : State} {bytes : List Byte} {a : Nat} {w : Word} {i : Instr}

/-! ### load -/

theorem State.load_of_fits (hf : s.fault = none) (h : bytes.length ≤ 3584) :
    s.load bytes = s.writeMem (Memory.fill s.mem 0x200 bytes) := by
  simp [State.load, hf, h, Config.progSize, Config.progBase]

theorem State.load_of_oversize (hf : s.fault = none) (h : 3584 < bytes.length) :
    s.load bytes = s.enterFault .loadTooLarge 0x200 none := by
  simp [State.load, hf, Nat.not_le.2 h, Config.progSize]

/-- Settles O47: 3584 bytes from 0x200 on end at the end of memory, so the whole run of writes is inside it. -/
theorem programLoadCopiesTheBytes : Obligations.ProgramLoadCopiesTheBytes := by
  intro s bytes hm hf hlen
  have hfits : 0x200 + bytes.length ≤ 4096 := by omega
  refine ⟨s.writeMem (Memory.fill s.mem 0x200 bytes), ?_, fun k hk => ?_, fun a ha => ?_, ?_, rfl⟩
  · rw [transact, State.load_of_fits hf hlen]
  · exact Memory.read_fill_of_getElem? hm hfits (List.getElem?_eq_getElem hk)
  · exact Memory.read_fill_outside ha
  · exact Memory.wf_fill hm hfits

/-- Settles O48: the length is checked before anything is written. -/
theorem oversizeProgramLoadIsRejected : Obligations.OversizeProgramLoadIsRejected := by
  intro s bytes hf hlen
  rw [transact, State.load_of_oversize hf hlen]
  rfl

/-! ### The end of a run -/

/-- A jump to the address it stands at undoes the fetch. -/
theorem step_of_selfJump (hf : s.fault = none) (h : s.selfJump) : step s = .next s := by
  obtain ⟨nnn, hw, hpc⟩ := h
  have htarget : immAddr nnn = s.pc := BitVec.eq_of_toNat_eq (by rw [immAddr_toNat, hpc])
  rw [step_of_decode hf hw (decode_encode _)]
  show Host.Outcome.next (s.writePC (immAddr nnn)) = _
  rw [htarget]
  rfl

/-- Settles O51: a fault halts the machine, and a self-jump writes the PC it was fetched at. -/
theorem endOfARunIsAFixedPointOfTick : Obligations.EndOfARunIsAFixedPointOfTick := by
  intro s hend
  by_cases hf : s.fault = none
  · exact step_of_selfJump hf (hend.resolve_left (by simp [State.faulted, hf]))
  · exact step_of_faulted hf

/-! ### Construction -/

theorem Memory.read_of_ge {m : Memory} (h : 4096 ≤ a) : Memory.read m a = none := if_neg (Nat.not_lt.2 h)

theorem glyphSet_length : glyphSet.length = 80 := rfl

theorem Memory.initial_of_lt (h : a < 80) : some (Memory.initial a) = glyphSet[a]? := by
  rw [Memory.initial, List.getD_eq_getElem _ _ h, List.getElem?_eq_getElem h]

theorem Memory.initial_of_ge (h : 80 ≤ a) : Memory.initial a = 0 := by
  rw [Memory.initial, List.getD_eq_default _ _ h]

/-- Settles O52: memory lists no cell at reset, so every address reads as at construction. -/
theorem resetStateIsAsTabulated : Obligations.ResetStateIsAsTabulated := by
  refine ⟨rfl, rfl, rfl, rfl, rfl, rfl, by decide, Display.get_blank, glyphSet_length, fun a ha => ?_,
    fun a hge hlt => ?_, fun a ha => Memory.read_of_ge ha⟩
  · exact (Memory.read_of_lt (by omega)).trans (Memory.initial_of_lt ha)
  · exact (Memory.read_of_lt hlt).trans (congrArg some (Memory.initial_of_ge hge))

/-- The glyph bytes are written first, from address 0 on, and the other bytes after them. -/
theorem State.construct_mem (c : Construction) :
    (State.construct c).mem = Memory.fill (Memory.fill [] 0 c.glyphs.toList) 80 c.initMem.toList := rfl

/-- Settles O53: the second run of writes begins where the glyphs end. -/
theorem constructionPlacesTheGlyphSet : Obligations.ConstructionPlacesTheGlyphSet := by
  refine fun c => ⟨fun d k hk => ?_, fun k hk => ?_, rfl, rfl, rfl⟩
  · have hlt : 5 * d.val + k < 80 := by omega
    have hget : c.glyphs.toList[5 * d.val + k]? = some (c.glyphs[5 * d.val + k]'hlt) := by simp [hlt]
    rw [State.construct_mem, Memory.read_fill_outside (.inl hlt)]
    simpa using Memory.read_fill_of_getElem? (m := []) (a := 0) rfl (by rw [Vector.length_toList]; decide) hget
  · have hget : c.initMem.toList[k]? = some (c.initMem[k]'hk) := by simp
    exact Memory.read_fill_of_getElem? (Memory.wf_fill_glyphs c) (by rw [Vector.length_toList]; decide) hget

/-- Settles O54: 0x0000 is an illegal word. -/
theorem tickBeforeLoadIsADecodeFault : Obligations.TickBeforeLoadIsADecodeFault :=
  step_of_illegal rfl (by decide) (by decide)

/-! ### The placed word -/

theorem State.ready_pc_le (s : State) : s.ready.pc.toNat ≤ 4094 := by
  show (if s.pc.toNat + 1 < 4096 then s.pc else 0x200).toNat ≤ 4094
  split
  · omega
  · decide

theorem State.ready_eq_self (hf : s.fault = none) (h : s.pc.toNat ≤ 4094) : s.ready = s := by
  have hlt : s.pc.toNat + 1 < 4096 := by omega
  apply State.ext <;> simp [State.ready, Config.memSize, hf, hlt]

theorem ofNat_toNat_mod (w : Word) : BitVec.ofNat 16 (w.toNat % 2 ^ 16) = w := by
  rw [Nat.mod_eq_of_lt w.isLt, BitVec.ofNat_toNat, BitVec.setWidth_eq]

theorem State.withFetchWord_eq (s : State) (w : Word) : s.withFetchWord 16 w.toNat = s.ready.putWordAtPC w := by
  rw [State.withFetchWord, ofNat_toNat_mod]

/-- Placing a word is a run of two writes at PC. -/
theorem State.putWordAtPC_eq (s : State) (w : Word) :
    s.putWordAtPC w = s.writeMem (Memory.fill s.mem s.pc.toNat [highByte w, lowByte w]) := rfl

theorem State.readWord_putWordAtPC (hm : Memory.wf s.mem = true) (hpc : s.pc.toNat ≤ 4094) :
    Memory.readWord (s.putWordAtPC w).mem s.pc.toNat = some w := by
  have hfits : s.pc.toNat + [highByte w, lowByte w].length ≤ 4096 := by simp; omega
  have hhi := Memory.read_fill_of_getElem? (j := 0) (b := highByte w) hm hfits rfl
  have hlo := Memory.read_fill_of_getElem? (j := 1) (b := lowByte w) hm hfits rfl
  rw [State.putWordAtPC_eq]
  exact (Memory.readWord_of_reads hhi hlo).trans (congrArg some (wordOfBytes_high_low w))

theorem decodeTableWord_of_decode (h : decode w = some i) : decodeTableWord 16 w.toNat = some i := by
  simp only [decodeTableWord, ofNat_toNat_mod, decodeBytes, wordOfBytes_high_low, h, Option.map_some]

/-- Settles O55: the word placed at PC is the one that the fetch reads there. -/
theorem stepRunsThePlacedWord : Obligations.StepRunsThePlacedWord := by
  intro s w i hm hd
  rw [State.withFetchWord_eq]
  have hw := State.readWord_putWordAtPC (s := s.ready) (w := w) hm s.ready_pc_le
  refine ⟨decodeTableWord_of_decode hd, _, State.fetch_of_decode rfl hw hd, step_of_decode rfl hw hd, rfl,
    fun hf hpc => ?_⟩
  rw [State.ready_eq_self hf hpc]
  rfl

end Sys2Proof.Machine
end


section
/-! ST is an output (10_state.md R30): no instruction looks at it, so replacing it commutes with every instruction but
FX18, which overwrites it. -/

namespace Sys2Proof.Machine

open Sys2Proof.Claims

variable (s : State) (b : Byte)

theorem State.skipIf_writeST (c : Bool) : (s.writeST b).skipIf c = (s.skipIf c).writeST b := by
  cases c <;> rfl

theorem State.push_writeST (a : Word) : (s.writeST b).push a = (s.push a).map (·.writeST b) := by
  rcases s.push_cases a with ⟨h, hp⟩ | ⟨h, hp⟩ <;> rw [hp]
  · exact dif_pos h
  · exact dif_neg (Nat.not_lt.2 h)

theorem State.pop_writeST : (s.writeST b).pop = s.pop.map (Prod.map id (·.writeST b)) := by
  by_cases h : s.sp = 0
  · simp [State.pop, h]
  · rw [State.pop_of_sp_ne_zero s h, Option.map_map]
    exact State.pop_of_sp_ne_zero (s.writeST b) h

theorem skipOnKey_writeST (x : Reg) (pressed : Bool) (i : Instr) :
    skipOnKey x pressed i (s.writeST b) = onNext (·.writeST b) (skipOnKey x pressed i s) := by
  rcases Nat.lt_or_ge 15 (s.readV x).toNat with h | h
  · rw [skipOnKey_of_gt h]; exact skipOnKey_of_gt (s := s.writeST b) h
  · rw [skipOnKey_of_index (k := ⟨_, Nat.lt_succ_of_le h⟩) rfl]
    exact (skipOnKey_of_index (s := s.writeST b) (k := ⟨_, Nat.lt_succ_of_le h⟩) rfl).trans
      (congrArg Host.Outcome.next (State.skipIf_writeST ..))

theorem exec_writeST (i : Instr) (hst : ∀ x, i ≠ .ldStVx x) :
    exec i (s.writeST b) = onNext (·.writeST b) (exec i s) := by
  cases i with
  | ldStVx x => exact absurd rfl (hst x)
  | ret =>
    simp only [exec, execRet, State.pop_writeST]
    cases s.pop <;> rfl
  | call nnn =>
    simp only [exec, execCall, State.push_writeST, State.writeST_pc]
    cases s.push s.pc <;> rfl
  | seImm | sneImm | seReg | sneReg => exact congrArg Host.Outcome.next (State.skipIf_writeST ..)
  | skp | sknp => exact skipOnKey_writeST ..
  | drw x y n =>
    cases h : s.spriteBytes n with
    | none => rw [exec_drw_of_none h]; exact exec_drw_of_none (s := s.writeST b) h
    | some rows => rw [exec_drw_of_some h]; exact exec_drw_of_some (s := s.writeST b) h
  | ldVxK x =>
    rcases s.lowestKey_cases with ⟨k, -, hk, hlow⟩ | ⟨-, hnone⟩
    · rw [exec_ldVxK_of_pressed hk hlow]; exact exec_ldVxK_of_pressed (s := s.writeST b) hk hlow
    · rw [exec_ldVxK_of_none_pressed hnone]; exact exec_ldVxK_of_none_pressed (s := s.writeST b) hnone
  | ldBVx x =>
    rcases Nat.lt_or_ge 4095 (s.i.toNat + 2) with h | h
    · rw [exec_ldBVx_of_gt h]; exact exec_ldBVx_of_gt (s := s.writeST b) h
    · rw [exec_ldBVx_of_le h]; exact exec_ldBVx_of_le (s := s.writeST b) h
  | ldMemVx x =>
    rcases Nat.lt_or_ge 4095 (s.i.toNat + x.val) with h | h
    · rw [exec_ldMemVx_of_gt h]; exact exec_ldMemVx_of_gt (s := s.writeST b) h
    · rw [exec_ldMemVx_of_le h]; exact exec_ldMemVx_of_le (s := s.writeST b) h
  | ldVxMem x =>
    rcases Nat.lt_or_ge 4095 (s.i.toNat + x.val) with h | h
    · rw [exec_ldVxMem_of_gt h]; exact exec_ldVxMem_of_gt (s := s.writeST b) h
    · rw [exec_ldVxMem_of_le h]; exact exec_ldVxMem_of_le (s := s.writeST b) h
  | _ => rfl

/-- Settles O46: FX18 overwrites ST, and every other instruction commutes with replacing it. -/
theorem noInstructionReadsTheSoundTimer : Obligations.NoInstructionReadsTheSoundTimer := by
  intro i s b
  by_cases hst : ∃ x, i = .ldStVx x
  · obtain ⟨x, rfl⟩ := hst
    rfl
  · have hne : ∀ x, i ≠ .ldStVx x := fun x hi => hst ⟨x, hi⟩
    refine (exec_writeST s b i hne).trans (congrArg (onNext · (exec i s)) (funext fun t => ?_))
    split
    next x => exact absurd rfl (hne x)
    next => rfl

end Sys2Proof.Machine
end

section
/-! The converse of `exec_cases`: the effect of an instruction determines what `exec` answers. -/

namespace Sys2Proof.Machine

variable {i : Instr} {s t : State}

theorem exec_of_executed (h : Executed i s t) : exec i s = .next t := by
  cases i with
  | ret =>
    obtain ⟨hlt, hne, rfl⟩ := h
    have hsp : s.sp.toNat = (s.sp - 1).toNat + 1 := by bv_omega
    rw [exec_ret_of_pos (k := ⟨_, hlt⟩) hsp]
    simp only [BitVec.ofNat_toNat, BitVec.setWidth_eq]
    rfl
  | call => obtain ⟨hlt, rfl⟩ := h; exact exec_call_of_lt (k := ⟨_, hlt⟩) rfl
  | skp | sknp => obtain ⟨k, hk, rfl⟩ := h; exact skipOnKey_of_index hk
  | drw => obtain ⟨rows, hrows, _, rfl, rfl⟩ := h; exact exec_drw_of_some hrows
  | ldVxK =>
    obtain ⟨k, hk, hlow, rfl⟩ | ⟨hnone, rfl⟩ := h
    · exact exec_ldVxK_of_pressed hk hlow
    · exact exec_ldVxK_of_none_pressed hnone
  | ldBVx => obtain ⟨hle, rfl⟩ := h; exact exec_ldBVx_of_le hle
  | ldMemVx => obtain ⟨hle, rfl⟩ := h; exact exec_ldMemVx_of_le hle
  | ldVxMem => obtain ⟨hle, rfl⟩ := h; exact exec_ldVxMem_of_le hle
  | _ => cases h; rfl

end Sys2Proof.Machine
end


section
/-! The V registers an instruction reads and writes are those of R23's table (10_state.md): an execution with other
values in the registers it does not read has the same effect. -/

namespace Sys2Proof.Machine

open Sys2Proof.Claims

variable {i : Instr} {s t t' : State} {x : Reg} {b : Byte} {W W' : Reg → Prop} {v' : Vector Byte 16}

/-! ### Registers that are not written -/

theorem State.writeV_get_of_ne {r : Reg} (hr : r ≠ x) : (s.writeV x b).v[r] = s.v[r] :=
  (s.readV_writeV x r b).trans (if_neg hr)

theorem Executed.keeps_unwritten (h : Executed i s t) {r : Reg} (hr : ¬ WritesV i s r) : t.v[r] = s.v[r] := by
  cases i with
  | ldImm | addImm | ldReg | orReg | andReg | xorReg | rnd | ldVxDt => cases h; exact State.writeV_get_of_ne hr
  | addReg | sub | subn | shr | shl =>
    cases h
    obtain ⟨hx, hF⟩ := not_or.1 hr
    exact (State.writeV_get_of_ne hF).trans (State.writeV_get_of_ne hx)
  | drw => obtain ⟨_, _, _, _, rfl⟩ := h; exact State.writeV_get_of_ne hr
  | ldVxK =>
    obtain ⟨k, hk, -, rfl⟩ | ⟨-, rfl⟩ := h
    · exact State.writeV_get_of_ne fun hx => hr ⟨hx, k, hk⟩
    · rfl
  | ldVxMem => obtain ⟨_, rfl⟩ := h; exact State.loadRegs_bytesUpTo_of_gt (lt_of_not_ge hr)
  | seImm | sneImm | seReg | sneReg => cases h; rw [State.skipIf_v]
  | skp | sknp => obtain ⟨_, _, rfl⟩ := h; rw [State.skipIf_v]
  | ret => obtain ⟨_, _, rfl⟩ := h; rfl
  | call | ldBVx | ldMemVx => obtain ⟨_, rfl⟩ := h; rfl
  | _ => cases h; rfl

/-! ### Two states that differ in V registers only -/

/-- Nothing but V registers differs between the two states, and none of `W` does. -/
def DiffersInVOutside (W : Reg → Prop) (t t' : State) : Prop :=
  t' = { t with v := t'.v } ∧ ∀ r, W r → t'.v[r] = t.v[r]

/-- All V registers replaced. -/
def State.withRegs (s : State) (v' : Vector Byte 16) : State := { s with v := v' }

theorem DiffersInVOutside.withRegs (t : State) (v' : Vector Byte 16) :
    DiffersInVOutside (fun _ => False) t (t.withRegs v') := ⟨rfl, fun _ h => h.elim⟩

theorem DiffersInVOutside.mono (h : DiffersInVOutside W t t') (hW : ∀ r, W' r → W r) : DiffersInVOutside W' t t' :=
  ⟨h.1, fun r hr => h.2 r (hW r hr)⟩

/-- A byte written to the same register of both is the same in both. -/
theorem DiffersInVOutside.writeV (h : DiffersInVOutside W t t') (x : Reg) (b : Byte) :
    DiffersInVOutside (fun r => W r ∨ r = x) (t.writeV x b) (t'.writeV x b) := by
  refine ⟨?_, fun r hr => ?_⟩
  · conv_lhs => rw [h.1]
    rfl
  · show (t'.writeV x b).readV r = (t.writeV x b).readV r
    rw [State.readV_writeV, State.readV_writeV]
    split
    · rfl
    · exact h.2 r (hr.resolve_right ‹_›)

theorem DiffersInVOutside.withRegs_writeV (t : State) (v' : Vector Byte 16) (x : Reg) (b : Byte) :
    DiffersInVOutside (· = x) (t.writeV x b) ((t.withRegs v').writeV x b) :=
  ((withRegs t v').writeV x b).mono fun _ => .inr

theorem DiffersInVOutside.withRegs_writeV_writeV (t : State) (v' : Vector Byte 16) (x y : Reg) (b c : Byte) :
    DiffersInVOutside (fun r => r = x ∨ r = y) ((t.writeV x b).writeV y c)
      (((t.withRegs v').writeV x b).writeV y c) :=
  (withRegs_writeV t v' x b).writeV y c

theorem State.skipIf_withRegs (s : State) (v' : Vector Byte 16) (c : Bool) :
    (s.withRegs v').skipIf c = (s.skipIf c).withRegs v' := by
  cases c <;> rfl

theorem State.regsUpTo_withRegs (h : ∀ r ≤ x, v'[r] = s.v[r]) : (s.withRegs v').regsUpTo x = s.regsUpTo x := by
  apply List.ext_getElem?
  intro k
  rcases Nat.lt_or_ge x.val k with hk | hk
  · rw [List.getElem?_eq_none (by rw [State.regsUpTo_length]; omega),
      List.getElem?_eq_none (by rw [State.regsUpTo_length]; omega)]
  · have hkx : (⟨k, by omega⟩ : Reg) ≤ x := hk
    exact (State.regsUpTo_getElem? (s := s.withRegs v') hkx).trans
      ((congrArg some (h _ hkx)).trans (State.regsUpTo_getElem? hkx).symm)

/-! ### Registers that are not read -/

theorem Executed.withRegs (h : Executed i s t) (hread : ∀ r, ReadsV i r → (s.withRegs v').readV r = s.readV r) :
    ∃ t', Executed i (s.withRegs v') t' ∧ DiffersInVOutside (WritesV i s) t t' := by
  cases i with
  | cls | jp | ldI => cases h; exact ⟨_, rfl, .withRegs _ v'⟩
  | ret => obtain ⟨hlt, hne, rfl⟩ := h; exact ⟨_, ⟨hlt, hne, rfl⟩, .withRegs _ v'⟩
  | call => obtain ⟨hlt, rfl⟩ := h; exact ⟨_, ⟨hlt, rfl⟩, .withRegs _ v'⟩
  | ldDtVx | ldStVx | addIVx | ldFVx | jpV0 =>
    cases h
    refine ⟨_, rfl, ?_⟩
    rw [hread _ rfl]
    exact .withRegs _ v'
  | seImm x | sneImm x =>
    cases h
    refine ⟨_, rfl, ?_⟩
    rw [hread x rfl, State.skipIf_withRegs]
    exact .withRegs _ v'
  | seReg x y | sneReg x y =>
    cases h
    refine ⟨_, rfl, ?_⟩
    rw [hread x (.inl rfl), hread y (.inr rfl), State.skipIf_withRegs]
    exact .withRegs _ v'
  | skp x | sknp x =>
    obtain ⟨k, hk, rfl⟩ := h
    refine ⟨_, ⟨k, (hread x rfl).symm ▸ hk, rfl⟩, ?_⟩
    rw [State.skipIf_withRegs]
    exact .withRegs _ v'
  | ldImm | ldVxDt => cases h; exact ⟨_, rfl, .withRegs_writeV ..⟩
  | rnd x nn => cases h; exact ⟨_, rfl, .withRegs_writeV s.nextDraw v' x _⟩
  | addImm x | ldReg _ x =>
    cases h
    refine ⟨_, rfl, ?_⟩
    rw [hread x rfl]
    exact .withRegs_writeV ..
  | orReg x y | andReg x y | xorReg x y =>
    cases h
    refine ⟨_, rfl, ?_⟩
    rw [hread x (.inl rfl), hread y (.inr rfl)]
    exact .withRegs_writeV ..
  | shr x | shl x =>
    cases h
    refine ⟨_, rfl, ?_⟩
    rw [hread x rfl]
    exact .withRegs_writeV_writeV ..
  | addReg x y | sub x y | subn x y =>
    cases h
    refine ⟨_, rfl, ?_⟩
    rw [hread x (.inl rfl), hread y (.inr rfl)]
    exact .withRegs_writeV_writeV ..
  | drw x y n =>
    obtain ⟨rows, hrows, a, rfl, rfl⟩ := h
    refine ⟨_, ⟨rows, hrows, _, rfl, rfl⟩, ?_⟩
    rw [hread x (.inl rfl), hread y (.inr rfl)]
    exact .withRegs_writeV (s.writeDisp _) v' VF _
  | ldVxK x =>
    obtain ⟨k, hk, hlow, rfl⟩ | ⟨hnone, rfl⟩ := h
    · exact ⟨_, .inl ⟨k, hk, hlow, rfl⟩, (DiffersInVOutside.withRegs_writeV ..).mono fun _ hr => hr.1⟩
    · exact ⟨_, .inr ⟨hnone, rfl⟩, rfl, fun r ⟨_, k, hk⟩ => by simp [hnone k] at hk⟩
  | ldBVx x =>
    obtain ⟨hle, rfl⟩ := h
    refine ⟨_, ⟨hle, rfl⟩, ?_⟩
    rw [hread x rfl]
    exact .withRegs _ v'
  | ldMemVx x =>
    obtain ⟨hle, rfl⟩ := h
    refine ⟨_, ⟨hle, rfl⟩, ?_⟩
    rw [State.regsUpTo_withRegs (v' := v') hread]
    exact .withRegs _ v'
  | ldVxMem x =>
    obtain ⟨hle, rfl⟩ := h
    refine ⟨_, ⟨hle, rfl⟩, rfl, fun r hr => ?_⟩
    exact (State.loadRegs_bytesUpTo_of_le (s := s.withRegs v') hr).trans
      (State.loadRegs_bytesUpTo_of_le (s := s) hr).symm

/-- Settles O44: an execution is determined by the registers that its row lists as read. -/
theorem registerAccessIsAsTabulated : Obligations.RegisterAccessIsAsTabulated := by
  intro i s t _ h ht
  have he := executed_of_exec h ht
  refine ⟨fun r => he.keeps_unwritten, fun v' hread => ?_⟩
  obtain ⟨t', he', hframe, hwritten⟩ := he.withRegs hread
  exact ⟨t', exec_of_executed he', hframe, hwritten⟩

end Sys2Proof.Machine
end
